-- ==== Sys2Proof/Word.lean ====
section
/-! DEFINITION. The word types of the core (spec/00_scope.md R13, R14): every value is unsigned, and its width is
part of its type. -/

namespace Sys2Proof

/-- `u8`: a general register, a timer, one byte of memory (R14, R22). -/
abbrev Byte := BitVec 8

/-- `u16`: the index register, the program counter, a stack entry, an instruction word (R14, R25, R26, R80). -/
abbrev Word := BitVec 16

/-- `u12`: the `nnn` field, an absolute address (R81, R83). -/
abbrev Address := BitVec 12

/-- A 4-bit field: a register index `x` or `y`, or the row count `n` (R81). -/
abbrev Nibble := BitVec 4

end Sys2Proof
end

