-- ==== Sys2Proof/Config.lean ====
section
/-! DEFINITION. The implementation parameters of the spec (spec/00_scope.md R7 to R12, spec/47_full_profile.md R221)
and the one free value, the random byte of `Cxnn`. The values this hardware takes stand in Machine/Hardware.lean. -/

namespace Sys2Proof

/-- `MEM_SIZE` (R7): exactly 4096 bytes, addresses 0x000 to 0xFFF. -/
def memSize : Nat := 4096

/-- The default origin of `loadProgram` and the entry point (R8, R65). -/
def programOrigin : Nat := 0x200

/-- `FONT` (R9, R31): 16 glyphs of 5 bytes, the top pixel row first. -/
abbrev Font := Vector (Vector Byte 5) 16

/-- `DRAW_EDGE` (R10, R184): what `Dxyn` does with a pixel outside the 64x32 grid. -/
inductive DrawEdge where
  /-- Columns are taken modulo 64 and rows modulo 32. -/
  | wrap
  /-- Pixels off the grid are not drawn. -/
  | clip
  /-- The unchecked flat index of the reference routine, which faults at 2048 and above. -/
  | flat
deriving DecidableEq, Repr

/-- `SHIFT_SOURCE` (R221): the register that `8xy6` and `8xyE` shift. -/
inductive ShiftSource where
  | vx
  | vy
deriving DecidableEq, Repr

/-- `JUMP_OFFSET_REG` (R221): the register that `Bnnn` adds. -/
inductive JumpOffsetReg where
  | v0
  | vx
deriving DecidableEq, Repr

/-- The sub-parameters of the FULL profile (R221). -/
structure Quirks where
  shiftSource    : ShiftSource
  jumpOffsetReg  : JumpOffsetReg
  loadStoreIncI  : Bool
  logicResetsVF  : Bool
  waitForRelease : Bool
deriving DecidableEq, Repr

/-- `PROFILE` (R12): which opcode set decodes. The sub-parameters exist only under FULL (R221). -/
inductive Profile where
  | reference
  | full (quirks : Quirks)
deriving DecidableEq, Repr

/-- One choice of every parameter the spec leaves to the implementation, fixed for one machine. -/
structure Config where
  profile  : Profile
  drawEdge : DrawEdge
  font     : Font
deriving DecidableEq, Repr

/-- `RANDOM` (R11, R152): the byte that the environment supplies to the `k`-th execution of `Cxnn`. It has no body,
so nothing can be proved of its values: a statement about it holds for every sequence of draws.
FREE VALUE, notes/assumptions/4.md. -/
opaque Config.randomByte : Nat → Byte

end Sys2Proof
end

