-- ==== Sys2Proof/Machine/Hardware.lean ====
section
/-! DEFINITION. The parameter values of this hardware: `PROFILE = REFERENCE`, `DRAW_EDGE = WRAP` and the conventional
font (spec/00_scope.md R9, R10, R12; spec/10_state.md R31; spec/47_full_profile.md R221). -/

namespace Sys2Proof.Machine

/-- The default `FONT` of R31, one row per digit 0 to F. PRESUMED: the spec marks these bytes as general knowledge,
notes/assumptions/3.md. -/
def conventionalFont : Font := #v[
  #v[0xF0, 0x90, 0x90, 0x90, 0xF0],
  #v[0x20, 0x60, 0x20, 0x20, 0x70],
  #v[0xF0, 0x10, 0xF0, 0x80, 0xF0],
  #v[0xF0, 0x10, 0xF0, 0x10, 0xF0],
  #v[0x90, 0x90, 0xF0, 0x10, 0x10],
  #v[0xF0, 0x80, 0xF0, 0x10, 0xF0],
  #v[0xF0, 0x80, 0xF0, 0x90, 0xF0],
  #v[0xF0, 0x10, 0x20, 0x40, 0x40],
  #v[0xF0, 0x90, 0xF0, 0x90, 0xF0],
  #v[0xF0, 0x90, 0xF0, 0x10, 0xF0],
  #v[0xF0, 0x90, 0xF0, 0x90, 0x90],
  #v[0xE0, 0x90, 0xE0, 0x90, 0xE0],
  #v[0xF0, 0x80, 0x80, 0x80, 0xF0],
  #v[0xE0, 0x90, 0x90, 0x90, 0xE0],
  #v[0xF0, 0x80, 0xF0, 0x80, 0xF0],
  #v[0xF0, 0x80, 0xF0, 0x80, 0x80]]

/-- The value R221 takes for each sub-parameter of the FULL profile. -/
def takenQuirks : Quirks where
  shiftSource    := .vx
  jumpOffsetReg  := .v0
  loadStoreIncI  := false
  logicResetsVF  := false
  waitForRelease := false

/-- The parameters of the hardware the spec describes (R9, R10, R12). -/
def hardwareConfig : Config where
  profile  := .reference
  drawEdge := .wrap
  font     := conventionalFont

/-- The sub-parameters in force. Under REFERENCE no instruction that decodes has one, and the taken values
give `Fx65` the meaning of R164 (R220, R221). -/
def quirksOf : Profile → Quirks
  | .reference => takenQuirks
  | .full q    => q

end Sys2Proof.Machine
end

