-- ==== Sys2Proof/Syntax.lean ====
section
/-! DEFINITION. The instructions: one constructor per row of spec/opcode_table.json, the 21 of the reference profile
(spec/30_encoding.md R85) and the 13 of the FULL profile (spec/47_full_profile.md R222). Every operand has exactly the
width of its field (R81), so an operand out of range cannot be written. -/

namespace Sys2Proof

inductive Instr where
  /-- `00EE` RET (R122). -/
  | ret
  /-- `1nnn` JP nnn (R124). -/
  | jp (nnn : Address)
  /-- `2nnn` CALL nnn (R120). -/
  | call (nnn : Address)
  /-- `3xnn` SE Vx, nn (R126). -/
  | seImm (x : Nibble) (nn : Byte)
  /-- `4xnn` SNE Vx, nn (R127). -/
  | sneImm (x : Nibble) (nn : Byte)
  /-- `6xnn` LD Vx, nn (R140). -/
  | ldImm (x : Nibble) (nn : Byte)
  /-- `7xnn` ADD Vx, nn (R141). -/
  | addImm (x : Nibble) (nn : Byte)
  /-- `8xy0` LD Vx, Vy (R143). -/
  | ldReg (x y : Nibble)
  /-- `8xy2` AND Vx, Vy (R144). -/
  | andReg (x y : Nibble)
  /-- `8xy4` ADD Vx, Vy (R146). -/
  | addReg (x y : Nibble)
  /-- `8xy5` SUB Vx, Vy (R147). -/
  | subReg (x y : Nibble)
  /-- `Annn` LD I, nnn (R160). -/
  | ldI (nnn : Address)
  /-- `Cxnn` RND Vx, nn (R152). -/
  | rnd (x : Nibble) (nn : Byte)
  /-- `Dxyn` DRW Vx, Vy, n (R180). -/
  | drw (x y n : Nibble)
  /-- `ExA1` SKNP Vx (R200). -/
  | sknp (x : Nibble)
  /-- `Fx07` LD Vx, DT (R203). -/
  | ldVxDt (x : Nibble)
  /-- `Fx15` LD DT, Vx (R204). -/
  | ldDtVx (x : Nibble)
  /-- `Fx18` LD ST, Vx (R205). -/
  | ldStVx (x : Nibble)
  /-- `Fx29` LD F, Vx (R161). -/
  | ldF (x : Nibble)
  /-- `Fx33` LD B, Vx (R163). -/
  | ldB (x : Nibble)
  /-- `Fx65` LD Vx, [I] (R164). -/
  | ldVxI (x : Nibble)
  /-- `00E0` CLS, FULL (R223). -/
  | cls
  /-- `5xy0` SE Vx, Vy, FULL (R224). -/
  | seReg (x y : Nibble)
  /-- `9xy0` SNE Vx, Vy, FULL (R225). -/
  | sneReg (x y : Nibble)
  /-- `8xy1` OR Vx, Vy, FULL (R226). -/
  | orReg (x y : Nibble)
  /-- `8xy3` XOR Vx, Vy, FULL (R227). -/
  | xorReg (x y : Nibble)
  /-- `8xy6` SHR Vx, Vy, FULL (R228). -/
  | shr (x y : Nibble)
  /-- `8xy7` SUBN Vx, Vy, FULL (R229). -/
  | subn (x y : Nibble)
  /-- `8xyE` SHL Vx, Vy, FULL (R230). -/
  | shl (x y : Nibble)
  /-- `Bnnn` JP V0, nnn, FULL (R231). -/
  | jpV0 (nnn : Address)
  /-- `Ex9E` SKP Vx, FULL (R232). -/
  | skp (x : Nibble)
  /-- `Fx0A` LD Vx, K, FULL (R233). -/
  | ldVxK (x : Nibble)
  /-- `Fx1E` ADD I, Vx, FULL (R234). -/
  | addI (x : Nibble)
  /-- `Fx55` LD [I], Vx, FULL (R235). -/
  | ldIVx (x : Nibble)
deriving DecidableEq, Repr

end Sys2Proof
end

