-- ==== Sys2Proof/WellFormed.lean ====
section
/-! DEFINITION. When an instruction exists on a machine. Each operand's width is in its type and every value of every
field is legal (spec/30_encoding.md R83, R87), so the one check left is that the machine's profile holds the instruction
(spec/00_scope.md R3, R12; spec/47_full_profile.md R220). -/

namespace Sys2Proof

/-- Whether the instruction is one of the 13 that only the FULL profile decodes (R222). -/
def Instr.fullOnly : Instr → Bool
  | .ret | .jp _ | .call _ | .seImm _ _ | .sneImm _ _ | .ldImm _ _ | .addImm _ _ => false
  | .ldReg _ _ | .andReg _ _ | .addReg _ _ | .subReg _ _ => false
  | .ldI _ | .rnd _ _ | .drw _ _ _ | .sknp _ => false
  | .ldVxDt _ | .ldDtVx _ | .ldStVx _ | .ldF _ | .ldB _ | .ldVxI _ => false
  | .cls | .seReg _ _ | .sneReg _ _ | .orReg _ _ | .xorReg _ _ | .shr _ _ | .subn _ _ | .shl _ _ => true
  | .jpV0 _ | .skp _ | .ldVxK _ | .addI _ | .ldIVx _ => true

/-- The instruction decodes under profile `p`: always under FULL, and under REFERENCE when it is one of the 21. -/
def Instr.wellFormed (p : Profile) (i : Instr) : Bool :=
  match p with
  | .reference => !i.fullOnly
  | .full _    => true

end Sys2Proof
end

