-- ==== Sys2Proof/Decode.lean ====
section
/-! DEFINITION. Decoding of 16-bit instruction words, total and closed (spec/30_encoding.md R80 to R90, spec/47_full_profile.md
R222), the encoder written from the same formats, and the opcode table as data. -/

namespace Sys2Proof

/-! ### Fields (R81) -/

/-- `F = w[15:12]`, the family. -/
def fieldF (w : Word) : Nibble := w.extractLsb' 12 4
/-- `x = w[11:8]`. -/
def fieldX (w : Word) : Nibble := w.extractLsb' 8 4
/-- `y = w[7:4]`. -/
def fieldY (w : Word) : Nibble := w.extractLsb' 4 4
/-- `n = w[3:0]`. -/
def fieldN (w : Word) : Nibble := w.extractLsb' 0 4
/-- `nn = w[7:0]`. -/
def fieldNN (w : Word) : Byte := w.extractLsb' 0 8
/-- `nnn = w[11:0]`. -/
def fieldNNN (w : Word) : Address := w.extractLsb' 0 12

/-- An instruction word from its two bytes: the byte at the lower address is `w[15:8]` (R66, R80). -/
def wordOfBytes (hi lo : Byte) : Word := hi ++ lo

/-- The byte of a word stored at the lower address. -/
def highByte (w : Word) : Byte := w.extractLsb' 8 8
/-- The byte of a word stored at the higher address. -/
def lowByte (w : Word) : Byte := w.extractLsb' 0 8

/-! ### Decoding -/

/-- `decode` of R84: the 21 opcodes of the reference profile, none for every other word. -/
def decodeReference (w : Word) : Option Instr :=
  match fieldF w with
  | 0x0#4 => if w = 0x00EE#16 then some .ret else none
  | 0x1#4 => some (.jp (fieldNNN w))
  | 0x2#4 => some (.call (fieldNNN w))
  | 0x3#4 => some (.seImm (fieldX w) (fieldNN w))
  | 0x4#4 => some (.sneImm (fieldX w) (fieldNN w))
  | 0x6#4 => some (.ldImm (fieldX w) (fieldNN w))
  | 0x7#4 => some (.addImm (fieldX w) (fieldNN w))
  | 0x8#4 =>
    match fieldN w with
    | 0x0#4 => some (.ldReg (fieldX w) (fieldY w))
    | 0x2#4 => some (.andReg (fieldX w) (fieldY w))
    | 0x4#4 => some (.addReg (fieldX w) (fieldY w))
    | 0x5#4 => some (.subReg (fieldX w) (fieldY w))
    | _     => none
  | 0xA#4 => some (.ldI (fieldNNN w))
  | 0xC#4 => some (.rnd (fieldX w) (fieldNN w))
  | 0xD#4 => some (.drw (fieldX w) (fieldY w) (fieldN w))
  | 0xE#4 => if fieldNN w = 0xA1#8 then some (.sknp (fieldX w)) else none
  | 0xF#4 =>
    match fieldNN w with
    | 0x07#8 => some (.ldVxDt (fieldX w))
    | 0x15#8 => some (.ldDtVx (fieldX w))
    | 0x18#8 => some (.ldStVx (fieldX w))
    | 0x29#8 => some (.ldF (fieldX w))
    | 0x33#8 => some (.ldB (fieldX w))
    | 0x65#8 => some (.ldVxI (fieldX w))
    | _      => none
  | _ => none

/-- The 13 opcodes that the FULL profile decodes in addition (R222). -/
def decodeFullOnly (w : Word) : Option Instr :=
  match fieldF w with
  | 0x0#4 => if w = 0x00E0#16 then some .cls else none
  | 0x5#4 => if fieldN w = 0x0#4 then some (.seReg (fieldX w) (fieldY w)) else none
  | 0x8#4 =>
    match fieldN w with
    | 0x1#4 => some (.orReg (fieldX w) (fieldY w))
    | 0x3#4 => some (.xorReg (fieldX w) (fieldY w))
    | 0x6#4 => some (.shr (fieldX w) (fieldY w))
    | 0x7#4 => some (.subn (fieldX w) (fieldY w))
    | 0xE#4 => some (.shl (fieldX w) (fieldY w))
    | _     => none
  | 0x9#4 => if fieldN w = 0x0#4 then some (.sneReg (fieldX w) (fieldY w)) else none
  | 0xB#4 => some (.jpV0 (fieldNNN w))
  | 0xE#4 => if fieldNN w = 0x9E#8 then some (.skp (fieldX w)) else none
  | 0xF#4 =>
    match fieldNN w with
    | 0x0A#8 => some (.ldVxK (fieldX w))
    | 0x1E#8 => some (.addI (fieldX w))
    | 0x55#8 => some (.ldIVx (fieldX w))
    | _      => none
  | _ => none

/-- Why a word does not decode. -/
inductive DecodeError where
  /-- R88: the word matches no row of the profile's table; the machine faults with the word. -/
  | unknownOpcode (w : Word)
deriving DecidableEq, Repr

/-- Decoding under a profile (R84, R103, R222): the reference rows always, the rows of R222 only under FULL, and every
other word rejected by name (R88). -/
def decode (p : Profile) (w : Word) : Except DecodeError Instr :=
  match decodeReference w, p with
  | some i, _          => .ok i
  | none, .reference   => .error (.unknownOpcode w)
  | none, .full _ =>
    match decodeFullOnly w with
    | some i => .ok i
    | none   => .error (.unknownOpcode w)

/-! ### Encoding (R82) -/

/-- Format `NNN`: `FFFF aaaa aaaa aaaa`. -/
def formNNN (f : Nibble) (nnn : Address) : Word := f ++ nnn
/-- Format `XNN`, and `XS` with the sub-opcode as `nn`: `FFFF xxxx kkkk kkkk`. -/
def formXNN (f x : Nibble) (nn : Byte) : Word := (f ++ x : Byte) ++ nn
/-- Formats `XYS` and `XYN`: `FFFF xxxx yyyy ssss`. -/
def formXYN (f x y n : Nibble) : Word := (f ++ x : Byte) ++ (y ++ n : Byte)

/-- The word of an instruction (R82, R85, R222). -/
def encode : Instr → Word
  | .ret          => 0x00EE
  | .jp nnn       => formNNN 0x1 nnn
  | .call nnn     => formNNN 0x2 nnn
  | .seImm x nn   => formXNN 0x3 x nn
  | .sneImm x nn  => formXNN 0x4 x nn
  | .ldImm x nn   => formXNN 0x6 x nn
  | .addImm x nn  => formXNN 0x7 x nn
  | .ldReg x y    => formXYN 0x8 x y 0x0
  | .andReg x y   => formXYN 0x8 x y 0x2
  | .addReg x y   => formXYN 0x8 x y 0x4
  | .subReg x y   => formXYN 0x8 x y 0x5
  | .ldI nnn      => formNNN 0xA nnn
  | .rnd x nn     => formXNN 0xC x nn
  | .drw x y n    => formXYN 0xD x y n
  | .sknp x       => formXNN 0xE x 0xA1
  | .ldVxDt x     => formXNN 0xF x 0x07
  | .ldDtVx x     => formXNN 0xF x 0x15
  | .ldStVx x     => formXNN 0xF x 0x18
  | .ldF x        => formXNN 0xF x 0x29
  | .ldB x        => formXNN 0xF x 0x33
  | .ldVxI x      => formXNN 0xF x 0x65
  | .cls          => 0x00E0
  | .seReg x y    => formXYN 0x5 x y 0x0
  | .sneReg x y   => formXYN 0x9 x y 0x0
  | .orReg x y    => formXYN 0x8 x y 0x1
  | .xorReg x y   => formXYN 0x8 x y 0x3
  | .shr x y      => formXYN 0x8 x y 0x6
  | .subn x y     => formXYN 0x8 x y 0x7
  | .shl x y      => formXYN 0x8 x y 0xE
  | .jpV0 nnn     => formNNN 0xB nnn
  | .skp x        => formXNN 0xE x 0x9E
  | .ldVxK x      => formXNN 0xF x 0x0A
  | .addI x       => formXNN 0xF x 0x1E
  | .ldIVx x      => formXNN 0xF x 0x55

/-! ### The opcode table as data (R85, R222) -/

/-- One row: the fixed bits of a word (`mask`) and their values (`bits`). -/
structure OpcodeRow where
  bits : Word
  mask : Word
deriving DecidableEq, Repr

/-- A word selects a row iff `w & mask == match` (R85). -/
def OpcodeRow.selects (r : OpcodeRow) (w : Word) : Bool := w &&& r.mask == r.bits

/-- The 21 rows of R85, in its order. -/
def referenceRows : List OpcodeRow :=
  [⟨0x00EE, 0xFFFF⟩, ⟨0x1000, 0xF000⟩, ⟨0x2000, 0xF000⟩, ⟨0x3000, 0xF000⟩, ⟨0x4000, 0xF000⟩, ⟨0x6000, 0xF000⟩,
   ⟨0x7000, 0xF000⟩, ⟨0x8000, 0xF00F⟩, ⟨0x8002, 0xF00F⟩, ⟨0x8004, 0xF00F⟩, ⟨0x8005, 0xF00F⟩] ++
  [⟨0xA000, 0xF000⟩, ⟨0xC000, 0xF000⟩, ⟨0xD000, 0xF000⟩, ⟨0xE0A1, 0xF0FF⟩, ⟨0xF007, 0xF0FF⟩, ⟨0xF015, 0xF0FF⟩,
   ⟨0xF018, 0xF0FF⟩, ⟨0xF029, 0xF0FF⟩, ⟨0xF033, 0xF0FF⟩, ⟨0xF065, 0xF0FF⟩]

/-- The 13 rows of R222, in its order. -/
def fullOnlyRows : List OpcodeRow :=
  [⟨0x00E0, 0xFFFF⟩, ⟨0x5000, 0xF00F⟩, ⟨0x9000, 0xF00F⟩, ⟨0x8001, 0xF00F⟩, ⟨0x8003, 0xF00F⟩, ⟨0x8006, 0xF00F⟩,
   ⟨0x8007, 0xF00F⟩, ⟨0x800E, 0xF00F⟩, ⟨0xB000, 0xF000⟩, ⟨0xE09E, 0xF0FF⟩, ⟨0xF00A, 0xF0FF⟩, ⟨0xF01E, 0xF0FF⟩,
   ⟨0xF055, 0xF0FF⟩]

/-- The rows that decode under a profile (R84, R222). -/
def opcodeRows : Profile → List OpcodeRow
  | .reference => referenceRows
  | .full _    => referenceRows ++ fullOnlyRows

/-- The row of the table that an instruction's words select (R85, R222). -/
def Instr.row : Instr → OpcodeRow
  | .ret        => ⟨0x00EE, 0xFFFF⟩
  | .jp _       => ⟨0x1000, 0xF000⟩
  | .call _     => ⟨0x2000, 0xF000⟩
  | .seImm _ _  => ⟨0x3000, 0xF000⟩
  | .sneImm _ _ => ⟨0x4000, 0xF000⟩
  | .ldImm _ _  => ⟨0x6000, 0xF000⟩
  | .addImm _ _ => ⟨0x7000, 0xF000⟩
  | .ldReg _ _  => ⟨0x8000, 0xF00F⟩
  | .andReg _ _ => ⟨0x8002, 0xF00F⟩
  | .addReg _ _ => ⟨0x8004, 0xF00F⟩
  | .subReg _ _ => ⟨0x8005, 0xF00F⟩
  | .ldI _      => ⟨0xA000, 0xF000⟩
  | .rnd _ _    => ⟨0xC000, 0xF000⟩
  | .drw _ _ _  => ⟨0xD000, 0xF000⟩
  | .sknp _     => ⟨0xE0A1, 0xF0FF⟩
  | .ldVxDt _   => ⟨0xF007, 0xF0FF⟩
  | .ldDtVx _   => ⟨0xF015, 0xF0FF⟩
  | .ldStVx _   => ⟨0xF018, 0xF0FF⟩
  | .ldF _      => ⟨0xF029, 0xF0FF⟩
  | .ldB _      => ⟨0xF033, 0xF0FF⟩
  | .ldVxI _    => ⟨0xF065, 0xF0FF⟩
  | .cls        => ⟨0x00E0, 0xFFFF⟩
  | .seReg _ _  => ⟨0x5000, 0xF00F⟩
  | .sneReg _ _ => ⟨0x9000, 0xF00F⟩
  | .orReg _ _  => ⟨0x8001, 0xF00F⟩
  | .xorReg _ _ => ⟨0x8003, 0xF00F⟩
  | .shr _ _    => ⟨0x8006, 0xF00F⟩
  | .subn _ _   => ⟨0x8007, 0xF00F⟩
  | .shl _ _    => ⟨0x800E, 0xF00F⟩
  | .jpV0 _     => ⟨0xB000, 0xF000⟩
  | .skp _      => ⟨0xE09E, 0xF0FF⟩
  | .ldVxK _    => ⟨0xF00A, 0xF0FF⟩
  | .addI _     => ⟨0xF01E, 0xF0FF⟩
  | .ldIVx _    => ⟨0xF055, 0xF0FF⟩

/-! ### The host's question -/

/-- What the decoder reads from a word of the opcode table. The table lists the rows of both profiles, and no word of a
reference row changes its meaning under FULL (R220), so the decoder answers under FULL; its sub-parameters do not enter
decoding. notes/assumptions/2.md. -/
def decodeTableWord (nbits w : Nat) : Option Instr :=
  match decode (.full Machine.takenQuirks) (BitVec.ofNat 16 (w % 2 ^ nbits)) with
  | .ok i    => some i
  | .error _ => none

end Sys2Proof
end

