-- ==== Sys2Proof/Machine/State.lean ====
section
/-! DEFINITION. The state of the machine (spec/10_state.md R20 to R40), its faults (spec/60_exceptions.md R261), its one
refusal of its own, and the state after reset (spec/70_reset_and_hazards.md R300). -/

namespace Sys2Proof.Machine

/-- What an access that ran past the memory wanted to do (R261). -/
inductive AccessKind where
  | fetch
  | read
  | write
deriving DecidableEq, Repr

/-- The step faults of R261, each with what it records. Every one is the spec's own fault, fatal and precise (R262, R264);
a fault stops the machine and nothing of the faulting step remains but the fault status (R107). -/
inductive Fault where
  /-- Code 1. Raised by a fetch, a data read or a data write at an address of 4096 or more; records the lowest address out
  of range (for a fetch, the program counter) and the access. For data accesses this is the spec's decision D6: SAFE. -/
  | addressOutOfBounds (a : Nat) (kind : AccessKind)
  /-- Code 2. Raised by CALL with 16 entries on the stack; records the address of the CALL: SAFE. -/
  | stackOverflow (pc : Word)
  /-- Code 3. Raised by RET with an empty stack; records the address of the RET: SAFE. -/
  | stackUnderflow (pc : Word)
  /-- Code 4. Raised by decoding a word of no row of the profile's table; records the word: SAFE. -/
  | unknownOpcode (w : Word)
  /-- Code 5. Raised by SKNP and SKP with a key number above 15; records the number. The spec's decision D13: SAFE. -/
  | keyIndexOutOfRange (k : Byte)
  /-- Code 6. Raised by DRW under `DRAW_EDGE = FLAT` for a pixel index of 2048 or more; records the index. The spec's
  decision D10: SAFE. -/
  | framebufferIndexOutOfRange (k : Nat)
deriving DecidableEq, Repr

/-- Why the model gives no answer. -/
inductive Refusal where
  /-- An instruction without a meaning yet: no arm of exec answers so. SAFE. -/
  | notModelled (mnemonic : String)
  /-- `Fx0A` on a machine that sets `WAIT_FOR_RELEASE = true`: the spec "does not give that variant's state machine"
  (R233). No machine with the values this spec takes reaches it. SAFE. notes/assumptions/7.md. -/
  | waitForReleaseNotGiven
deriving DecidableEq, Repr

/-- The fault status (R40). -/
inductive Status where
  | running
  | faulted (f : Fault)
deriving DecidableEq, Repr

/-- Memory contents: the listed addresses and their bytes, in the canonical form of `Memory.wf` (Machine/Ops.lean). -/
abbrev Memory := List Host.Cell

/-- The framebuffer (R30): 32 rows of 64 one-bit pixels, `true` being 1, lit. The flat entry `fb[k]` of the spec, row-major
with `k = y * 64 + x`, is column `k % 64` of row `k / 64` (`Framebuffer.get`, Machine/Operands.lean). -/
abbrev Framebuffer := Vector (Vector Bool 64) 32

/-- The whole state: one field per element of R21 to R40, and two of the model's own (`config`, `draws`). -/
structure State where
  /-- R21: 4096 bytes. -/
  memory : Memory
  /-- R22: the general registers `V0` to `VF`. -/
  V : Vector Byte 16
  /-- R25: the index register. -/
  I : Word
  /-- R26: the program counter, the address of the instruction that runs next. -/
  pc : Word
  /-- R27: the call stack, 16 saved program counters. -/
  stack : Vector Word 16
  /-- R28: the stack pointer, 0 to 16, the next free slot. -/
  sp : Fin 17
  /-- R29: the delay timer. -/
  DT : Byte
  /-- R29: the sound timer. -/
  ST : Byte
  /-- R30: the framebuffer. -/
  fb : Framebuffer
  /-- R32: the keys; `true` is pressed. -/
  key : Vector Bool 16
  /-- R33: the redraw flag. -/
  needsRedraw : Bool
  /-- R40: the fault status. -/
  status : Status
  /-- The model's own: the implementation parameters (R7 to R12, R221), which no step changes. notes/assumptions/1.md. -/
  config : Config
  /-- The model's own: how many random bytes the environment has supplied (R11). notes/assumptions/4.md. -/
  draws : Nat
deriving DecidableEq, Repr

/-- The state right after reset of the hardware the spec describes (R300, R301): memory lists nothing, so it reads as
the font and zeros (R21). -/
def State.reset : State where
  memory := []
  V := Vector.replicate 16 0
  I := 0
  pc := 0x200
  stack := Vector.replicate 16 0
  sp := 0
  DT := 0
  ST := 0
  fb := Vector.replicate 32 (Vector.replicate 64 false)
  key := Vector.replicate 16 false
  needsRedraw := false
  status := .running
  config := hardwareConfig
  draws := 0

end Sys2Proof.Machine
end

