-- ==== Sys2Proof/Machine/Ops.lean ====
section
/-! DEFINITION. The shared operations over memory, the program counter, the call stack, the timers and the fault status
(spec/20_memory.md R60 to R68, spec/40_step_cycle.md R102 to R107, spec/41_control_flow.md R121, spec/60_exceptions.md R262, R280). -/

namespace Sys2Proof.Machine

/-! ### Memory (R60 to R64) -/

/-- What an address that memory does not list reads as: the reset contents, the font at 0x000 to 0x04F and zero above it
(R21, R31, R64). Glyph `d` stands at `5 * d` to `5 * d + 4`. -/
def Memory.unlisted (font : Font) (a : Nat) : Byte :=
  if h : a < 80 then (font[a / 5])[a % 5]'(Nat.mod_lt a (by decide)) else 0

/-- The canonical form: addresses strictly rising, each inside the memory, and no entry that equals what an unlisted
address reads as. Equal memories are then equal lists. -/
abbrev Memory.wf (font : Font) (m : Memory) : Prop :=
  m.Pairwise (fun c d => c.1 < d.1) ∧ ∀ c ∈ m, c.1 < memSize ∧ c.2 ≠ Memory.unlisted font c.1

/-- The byte at an address. -/
def Memory.get (font : Font) : Memory → Nat → Byte
  | [], a            => Memory.unlisted font a
  | (b, v) :: m, a => if b = a then v else Memory.get font m a

/-- List `v` at `a`, at its place in the rising order. -/
def Memory.insert : Memory → Nat → Byte → Memory
  | [], a, v => [(a, v)]
  | (b, u) :: m, a, v =>
    if b < a then (b, u) :: Memory.insert m a v
    else if b = a then (a, v) :: m
    else (a, v) :: (b, u) :: m

/-- Store a byte, keeping the canonical form: storing what an unlisted address reads as removes the entry. -/
def Memory.set (font : Font) (m : Memory) (a : Nat) (v : Byte) : Memory :=
  if v = Memory.unlisted font a then m.filter (fun c => c.1 != a) else Memory.insert m a v

/-- The byte of memory at `a`, with no bounds check. -/
def State.byteAt (s : State) (a : Nat) : Byte := Memory.get s.config.font s.memory a

/-- Store `v` at `a`, with no bounds check. -/
def State.setByte (s : State) (a : Nat) (v : Byte) : State :=
  { s with memory := Memory.set s.config.font s.memory a v }

/-- `MemRead(a)` (R62): `a` is exact, with no wrap before the check. -/
def State.memRead (s : State) (a : Nat) : Except Fault Byte :=
  if a ≥ memSize then .error (.addressOutOfBounds a .read) else .ok (s.byteAt a)

/-- `MemWrite(a, v)` (R63). No address is protected. -/
def State.memWrite (s : State) (a : Nat) (v : Byte) : Except Fault State :=
  if a ≥ memSize then .error (.addressOutOfBounds a .write) else .ok (s.setByte a v)

/-- `n` bytes from `a` up, by one `MemRead` each, the lowest address first: the fault is that of the lowest address out
of range (R164, R180). -/
def State.readBytes (s : State) (a : Nat) : Nat → Except Fault (List Byte)
  | 0 => .ok []
  | n + 1 =>
    match s.memRead a with
    | .error f => .error f
    | .ok b =>
      match s.readBytes (a + 1) n with
      | .error f => .error f
      | .ok bs   => .ok (b :: bs)

/-- Bytes stored from `a` up, by one `MemWrite` each, the lowest address first. A fault answers no state, so nothing is
written unless every address is in range, and it is that of the lowest address out of range (R163, R235). -/
def State.writeBytes (s : State) (a : Nat) : List Byte → Except Fault State
  | [] => .ok s
  | b :: bs =>
    match s.memWrite a b with
    | .error f => .error f
    | .ok t    => t.writeBytes (a + 1) bs

/-- Bytes stored from `a` up with no bounds check, for the host's loader, which checks the whole range first (R302). -/
def State.setBytes (s : State) (a : Nat) : List Byte → State
  | []      => s
  | b :: bs => (s.setByte a b).setBytes (a + 1) bs

/-! ### Program counter (R104), all modulo 2^16 -/

/-- The advance form: `pc + 2`. -/
def State.advance (s : State) : State := { s with pc := s.pc + 2 }

/-- The skip form: `pc + 4` if the condition holds, else `pc + 2`. -/
def State.skipIf (s : State) (c : Bool) : State := { s with pc := if c then s.pc + 4 else s.pc + 2 }

/-- The jump form. -/
def State.jumpTo (s : State) (target : Word) : State := { s with pc := target }

/-! ### Call stack (R121) -/

/-- `push(v)`: none when all 16 entries are in use. -/
def State.push (s : State) (v : Word) : Option State :=
  if h : s.sp.val < 16 then
    some { s with stack := s.stack.set s.sp.val v h, sp := ⟨s.sp.val + 1, Nat.succ_lt_succ h⟩ }
  else none

/-- `pop()`: none when the stack is empty. The entry read is not cleared. -/
def State.pop (s : State) : Option (Word × State) :=
  if h : 0 < s.sp.val then
    some (s.stack[s.sp.val - 1]'(by have := s.sp.isLt; omega), { s with sp := ⟨s.sp.val - 1, by have := s.sp.isLt; omega⟩ })
  else none

/-! ### Faults (R261, R262) -/

/-- `raise E(info)`: the instruction ends at once with the fault and none of its writes (R262). There is no trap entry:
no handler, no saved state, no mode (R266). -/
def raise (f : Fault) : Host.Outcome State Fault Refusal := .fault f

/-- What a faulting step leaves of the state before it: everything as it was, but the status holds the fault (R107). The
way back to `running` is reset alone (R101, R267). -/
def State.enterFaulted (s : State) (f : Fault) : State := { s with status := .faulted f }

/-- The cause codes that the spec assigns (R261). -/
def Fault.code : Fault → Nat
  | .addressOutOfBounds _ _       => 1
  | .stackOverflow _              => 2
  | .stackUnderflow _             => 3
  | .unknownOpcode _              => 4
  | .keyIndexOutOfRange _         => 5
  | .framebufferIndexOutOfRange _ => 6

/-! ### Timers (R280) -/

/-- A timer counts down by one and stays at 0. -/
def tick (t : Byte) : Byte := if t > 0 then t - 1 else t

/-- `tickTimers()`: both timers, once at the end of every step that does not fault. -/
def State.tickTimers (s : State) : State := { s with DT := tick s.DT, ST := tick s.ST }

/-! ### Fetch (R102) -/

/-- `fetch()`: the big-endian word at `pc`; `pc + 1` is exact, not modulo 2^16. -/
def State.fetch (s : State) : Except Fault Word :=
  if s.pc.toNat + 1 ≥ memSize then .error (.addressOutOfBounds s.pc.toNat .fetch)
  else .ok (wordOfBytes (s.byteAt s.pc.toNat) (s.byteAt (s.pc.toNat + 1)))

/-- The word stored where the next fetch reads it, the high byte at the lower address (R66). -/
def State.placeWord (s : State) (w : Word) : State :=
  (s.setByte s.pc.toNat (highByte w)).setByte (s.pc.toNat + 1) (lowByte w)

/-- The FULL profile selected when the word is one that only FULL decodes, else no change.
notes/assumptions/2.md. -/
def State.selectProfileFor (s : State) (w : Word) : State :=
  match decodeReference w, decodeFullOnly w, s.config.profile with
  | none, some _, .reference => { s with config := { s.config with profile := .full takenQuirks } }
  | _, _, _                  => s

end Sys2Proof.Machine
end

