-- ==== Sys2Proof/Machine/Operands.lean ====
section
/-! DEFINITION. Operand forms: registers (spec/10_state.md R22 to R25), the register selections that FULL sub-parameters make
(spec/47_full_profile.md R221), register lists, decimal digits (spec/43_memory_index.md R162) framebuffer entries
(spec/10_state.md R30) and keys (spec/45_timer_key.md R200). -/

namespace Sys2Proof.Machine

/-- The index of `VF` (R24). -/
abbrev vf : Nibble := 0xF

/-- `V[x]` (R15). -/
def State.reg (s : State) (x : Nibble) : Byte := s.V[x.toNat]'x.isLt

/-- `V[x] <- v` (R15). No register is hardwired (R22). -/
def State.setReg (s : State) (x : Nibble) (v : Byte) : State := { s with V := s.V.set x.toNat v x.isLt }

/-- `I <- v`. -/
def State.setI (s : State) (v : Word) : State := { s with I := v }

/-- The flat framebuffer entry `fb[k]`, `k = y * 64 + x` (R30). -/
def Framebuffer.get (fb : Framebuffer) (k : Fin 2048) : Bool :=
  (fb[k.val / 64]'(by omega))[k.val % 64]'(Nat.mod_lt _ (by decide))

/-- `fb[k] <- b`. -/
def Framebuffer.set (fb : Framebuffer) (k : Fin 2048) (b : Bool) : Framebuffer :=
  Vector.set fb (k.val / 64) ((fb[k.val / 64]'(by omega)).set (k.val % 64) b (Nat.mod_lt _ (by decide))) (by omega)

/-- Every pixel 0. -/
def Framebuffer.blank : Framebuffer := Vector.replicate 32 (Vector.replicate 64 false)

/-- `V[k] <- v` for successive `k`, from `k` up; a value past `VF` has no register. -/
def State.setRegsFrom (s : State) (k : Nat) : List Byte → State
  | []      => s
  | b :: bs => ({ s with V := s.V.setIfInBounds k b } : State).setRegsFrom (k + 1) bs

/-- `V[0], …, V[x]`, the registers that `Fx55` stores (R235). -/
def State.regsUpTo (s : State) (x : Nibble) : List Byte := s.V.toList.take (x.toNat + 1)

/-- How many bytes `Fx55` and `Fx65` move: `x + 1` (R164, R235). -/
def regCount (x : Nibble) : Nat := x.toNat + 1

/-- The sub-parameters in force on this machine. -/
def State.quirks (s : State) : Quirks := quirksOf s.config.profile

/-- The operand of `8xy6` and `8xyE` (R228, R230). -/
def State.shiftOperand (s : State) (x y : Nibble) : Byte :=
  match s.quirks.shiftSource with
  | .vx => s.reg x
  | .vy => s.reg y

/-- The register that `Bnnn` adds: `V0`, or the one that the top digit of `nnn` names (R231). -/
def State.jumpOffset (s : State) (nnn : Address) : Byte :=
  match s.quirks.jumpOffsetReg with
  | .v0 => s.reg 0
  | .vx => s.reg (nnn.extractLsb' 8 4)

/-- `I <- I + x + 1` after `Fx55` and `Fx65` under `LOADSTORE_INC_I`, else no change (R235). -/
def State.advanceIndex (s : State) (x : Nibble) : State :=
  if s.quirks.loadStoreIncI then s.setI (s.I + BitVec.ofNat 16 (regCount x)) else s

/-- The hundreds digit of a byte (R162). -/
def hundreds (v : Byte) : Byte := BitVec.ofNat 8 (v.toNat / 100)
/-- The tens digit of a byte (R162). -/
def tens (v : Byte) : Byte := BitVec.ofNat 8 (v.toNat / 10 % 10)
/-- The ones digit of a byte (R162). -/
def ones (v : Byte) : Byte := BitVec.ofNat 8 (v.toNat % 10)

/-- `V[x] * 5`, the address of a glyph, exact and unmasked (R161). -/
def glyphAddress (v : Byte) : Word := BitVec.ofNat 16 (v.toNat * 5)

/-- Whether key `k` is pressed; none for a number above 15, which names no key (R201). -/
def State.keyPressed (s : State) (k : Byte) : Option Bool := s.key[k.toNat]?

/-- The least pressed key (R233). -/
def State.leastPressed (s : State) : Option (Fin 16) := (List.finRange 16).find? (fun k => s.key[k])

end Sys2Proof.Machine
end

