-- ==== Sys2Proof/Machine/Flags.lean ====
section
/-! DEFINITION. The values of the `VF` flag: carry, not-borrow, the bit shifted out, collision (spec/10_state.md R24). Each is
computed from the operands before the write (spec/42_register_alu.md R142). -/

namespace Sys2Proof.Machine

/-- A flag as a register value, 1 or 0. -/
def flagByte (b : Bool) : Byte := if b then 1 else 0

/-- Carry of `8xy4`: 1 iff the exact sum exceeds 255 (R146). -/
def carryFlag (a b : Byte) : Byte := flagByte (decide (a.toNat + b.toNat > 255))

/-- Not-borrow of `a - b`: 0 iff `a < b` (R147; R229 with the operands exchanged). -/
def notBorrowFlag (a b : Byte) : Byte := flagByte (!decide (a.toNat < b.toNat))

/-- The bit that `8xy6` shifts out, bit 0 (R228). -/
def shiftedOutRight (v : Byte) : Byte := flagByte (v.getLsbD 0)

/-- The bit that `8xyE` shifts out, bit 7 (R230). -/
def shiftedOutLeft (v : Byte) : Byte := flagByte (v.getLsbD 7)

/-- `VF <- f`. The flag is an instruction's last register write, so it wins over a result written to `VF`
(R146, R147, R228 to R230). -/
def State.setFlag (s : State) (f : Byte) : State := s.setReg vf f

/-- `VF <- 0` after `8xy1` and `8xy3` under `LOGIC_RESETS_VF`, else no change (R226, R227). -/
def State.logicFlag (s : State) : State := if s.quirks.logicResetsVF then s.setFlag 0 else s

end Sys2Proof.Machine
end

