-- ==== Sys2Proof/Machine/ControlFlow.lean ====
section
/-! DEFINITION. Control transfer (spec/41_control_flow.md; spec/47_full_profile.md R224, R225, R231). -/

namespace Sys2Proof.Machine

/-- RET (R122). -/
def execRet (s : State) : Host.Outcome State Fault Refusal :=
  match s.pop with
  | some (a, t) => .next (t.jumpTo (a + 2))
  | none        => raise (.stackUnderflow s.pc)

/-- JP nnn (R124). -/
def execJp (nnn : Address) (s : State) : Host.Outcome State Fault Refusal :=
  .next (s.jumpTo (nnn.setWidth 16))

/-- CALL nnn (R120): the address pushed is that of the CALL itself. -/
def execCall (nnn : Address) (s : State) : Host.Outcome State Fault Refusal :=
  match s.push s.pc with
  | some t => .next (t.jumpTo (nnn.setWidth 16))
  | none   => raise (.stackOverflow s.pc)

/-- SE Vx, nn (R126). -/
def execSeImm (x : Nibble) (nn : Byte) (s : State) : Host.Outcome State Fault Refusal :=
  .next (s.skipIf (s.reg x == nn))

/-- SNE Vx, nn (R127). -/
def execSneImm (x : Nibble) (nn : Byte) (s : State) : Host.Outcome State Fault Refusal :=
  .next (s.skipIf (s.reg x != nn))

/-- SE Vx, Vy (R224). -/
def execSeReg (x y : Nibble) (s : State) : Host.Outcome State Fault Refusal :=
  .next (s.skipIf (s.reg x == s.reg y))

/-- SNE Vx, Vy (R225). -/
def execSneReg (x y : Nibble) (s : State) : Host.Outcome State Fault Refusal :=
  .next (s.skipIf (s.reg x != s.reg y))

/-- JP V0, nnn (R231). -/
def execJpV0 (nnn : Address) (s : State) : Host.Outcome State Fault Refusal :=
  .next (s.jumpTo (nnn.setWidth 16 + (s.jumpOffset nnn).setWidth 16))

end Sys2Proof.Machine
end

