-- ==== Sys2Proof/Machine/Draw.lean ====
section
/-! DEFINITION. The sprite compositor (spec/44_draw.md) and the clear-screen instruction (spec/47_full_profile.md R223). -/

namespace Sys2Proof.Machine

/-- Where a sprite pixel lands (R184). -/
inductive PixelTarget where
  /-- On the framebuffer entry `k`. -/
  | entry (k : Fin 2048)
  /-- Nowhere: the pixel is not drawn and cannot collide. -/
  | none
  /-- Past the framebuffer, at index `k`: a fault. -/
  | outOfRange (k : Nat)
deriving DecidableEq, Repr

/-- `pixelIndex(px, py)` under each `DRAW_EDGE` (R184). -/
def pixelIndex (edge : DrawEdge) (px py : Nat) : PixelTarget :=
  match edge with
  | .wrap => .entry ⟨(py % 32) * 64 + px % 64, by omega⟩
  | .clip => if h : px < 64 ∧ py < 32 then .entry ⟨py * 64 + px, by omega⟩ else .none
  | .flat => if h : py * 64 + px < 2048 then .entry ⟨py * 64 + px, h⟩ else .outOfRange (py * 64 + px)

/-- The framebuffer while a sprite is drawn, and whether a lit pixel has been hit. -/
structure Canvas where
  fb  : Framebuffer
  hit : Bool
deriving DecidableEq, Repr

/-- One set sprite bit at `(px, py)`: note the collision, then toggle the pixel (R180). -/
def Canvas.plot (c : Canvas) (edge : DrawEdge) (px py : Nat) : Except Fault Canvas :=
  match pixelIndex edge px py with
  | .entry k      => .ok ⟨Framebuffer.set c.fb k (!Framebuffer.get c.fb k), c.hit || Framebuffer.get c.fb k⟩
  | .none         => .ok c
  | .outOfRange k => .error (.framebufferIndexOutOfRange k)

/-- The set sprite bits in turn, stopping at the first that faults (R265). -/
def Canvas.plotAll (c : Canvas) (edge : DrawEdge) : List (Nat × Nat) → Except Fault Canvas
  | [] => .ok c
  | p :: ps =>
    match c.plot edge p.1 p.2 with
    | .ok d    => d.plotAll edge ps
    | .error f => .error f

/-- The coordinates of the set bits of one row, the leftmost pixel (bit 7) first (R13, R180). -/
def rowPixels (x0 y : Nat) (row : Byte) : List (Nat × Nat) :=
  ((List.range 8).filter (fun b => row.getLsbD (7 - b))).map (fun b => (x0 + b, y))

/-- The coordinates of a sprite's set bits, the top row first (R180). -/
def spritePixels (x0 y : Nat) : List Byte → List (Nat × Nat)
  | []          => []
  | row :: rows => rowPixels x0 y row ++ spritePixels x0 (y + 1) rows

/-- The start column, `V[x] mod 64` (R183). -/
def startColumn (v : Byte) : Nat := v.toNat % 64
/-- The start row, `V[y] mod 32` (R183). -/
def startRow (v : Byte) : Nat := v.toNat % 32

/-- What a drawn sprite leaves: the framebuffer, the collision flag and the redraw flag (R181, R185). -/
def State.setCanvas (s : State) (c : Canvas) : State :=
  ({ s with fb := c.fb, needsRedraw := true } : State).setFlag (flagByte c.hit)

/-- DRW Vx, Vy, n (R180): all `n` rows are read, and so checked, before any pixel; the coordinates are read before `VF`
is written. -/
def execDrw (x y n : Nibble) (s : State) : Host.Outcome State Fault Refusal :=
  match s.readBytes s.I.toNat n.toNat with
  | .error f => raise f
  | .ok rows =>
    match (Canvas.mk s.fb false).plotAll s.config.drawEdge (spritePixels (startColumn (s.reg x)) (startRow (s.reg y)) rows) with
    | .error f => raise f
    | .ok c    => .next (s.setCanvas c).advance

/-- CLS (R223): every pixel 0 and a redraw; `VF` is unchanged. -/
def execCls (s : State) : Host.Outcome State Fault Refusal :=
  .next ({ s with fb := Framebuffer.blank, needsRedraw := true } : State).advance

end Sys2Proof.Machine
end

