-- ==== Sys2Proof/Machine/MemoryIndex.lean ====
section
/-! DEFINITION. The index register, font lookup, the decimal store, and register load and store (spec/43_memory_index.md;
spec/47_full_profile.md R234, R235). The address of byte `k` is `I + k`, exact. -/

namespace Sys2Proof.Machine

/-- LD I, nnn (R160). -/
def execLdI (nnn : Address) (s : State) : Host.Outcome State Fault Refusal :=
  .next (s.setI (nnn.setWidth 16)).advance

/-- LD F, Vx (R161). -/
def execLdF (x : Nibble) (s : State) : Host.Outcome State Fault Refusal :=
  .next (s.setI (glyphAddress (s.reg x))).advance

/-- LD B, Vx (R163). -/
def execLdB (x : Nibble) (s : State) : Host.Outcome State Fault Refusal :=
  match s.writeBytes s.I.toNat [hundreds (s.reg x), tens (s.reg x), ones (s.reg x)] with
  | .ok t    => .next t.advance
  | .error f => raise f

/-- LD Vx, [I] (R164); under FULL with `LOADSTORE_INC_I` it advances `I` (R235). -/
def execLdVxI (x : Nibble) (s : State) : Host.Outcome State Fault Refusal :=
  match s.readBytes s.I.toNat (regCount x) with
  | .ok bs   => .next ((s.setRegsFrom 0 bs).advanceIndex x).advance
  | .error f => raise f

/-- ADD I, Vx (R234). -/
def execAddI (x : Nibble) (s : State) : Host.Outcome State Fault Refusal :=
  .next (s.setI (s.I + (s.reg x).setWidth 16)).advance

/-- LD [I], Vx (R235). -/
def execLdIVx (x : Nibble) (s : State) : Host.Outcome State Fault Refusal :=
  match s.writeBytes s.I.toNat (s.regsUpTo x) with
  | .ok t    => .next (t.advanceIndex x).advance
  | .error f => raise f

end Sys2Proof.Machine
end

