-- ==== Sys2Proof/Machine/TimerKey.lean ====
section
/-! DEFINITION. Key tests and timer access (spec/45_timer_key.md; spec/47_full_profile.md R232, R233). The timer tick is the
step's, after the instruction (R100, R204). -/

namespace Sys2Proof.Machine

/-- SKNP Vx (R200, R201). -/
def execSknp (x : Nibble) (s : State) : Host.Outcome State Fault Refusal :=
  match s.keyPressed (s.reg x) with
  | some pressed => .next (s.skipIf (!pressed))
  | none         => raise (.keyIndexOutOfRange (s.reg x))

/-- SKP Vx (R232). -/
def execSkp (x : Nibble) (s : State) : Host.Outcome State Fault Refusal :=
  match s.keyPressed (s.reg x) with
  | some pressed => .next (s.skipIf pressed)
  | none         => raise (.keyIndexOutOfRange (s.reg x))

/-- LD Vx, DT (R203). -/
def execLdVxDt (x : Nibble) (s : State) : Host.Outcome State Fault Refusal :=
  .next (s.setReg x s.DT).advance

/-- LD DT, Vx (R204). -/
def execLdDtVx (x : Nibble) (s : State) : Host.Outcome State Fault Refusal :=
  .next ({ s with DT := s.reg x } : State).advance

/-- LD ST, Vx (R205). -/
def execLdStVx (x : Nibble) (s : State) : Host.Outcome State Fault Refusal :=
  .next ({ s with ST := s.reg x } : State).advance

/-- LD Vx, K (R233): with no key pressed the instruction stays where it is. On a machine with `WAIT_FOR_RELEASE` the spec
gives no meaning. -/
def execLdVxK (x : Nibble) (s : State) : Host.Outcome State Fault Refusal :=
  if s.quirks.waitForRelease then .refused .waitForReleaseNotGiven
  else
    match s.leastPressed with
    | some k => .next (s.setReg x (BitVec.ofNat 8 k.val)).advance
    | none   => .next s

end Sys2Proof.Machine
end

