-- ==== Sys2Proof/Machine/Step.lean ====
section
/-! DEFINITION. One step: fetch, decode, execute, timer (spec/40_step_cycle.md R100 to R108). -/

namespace Sys2Proof.Machine

/-- `step()` (R100). A step that does not fault answers the state after the instruction and the timer tick (R108). A fault
stops the machine; the state it leaves, the one before the step with the status set (R107), is the driver's view of the step
(Machine/Driver.lean). A machine already faulted answers its fault again (R101). -/
def step (s : State) : Host.Outcome State Fault Refusal :=
  match s.status with
  | .faulted f => .fault f
  | .running =>
    match s.fetch with
    | .error f => .fault f
    | .ok w =>
      match decode s.config.profile w with
      | .error (.unknownOpcode u) => .fault (.unknownOpcode u)
      | .ok i =>
        match exec i s with
        | .next t    => .next t.tickTimers
        | .fault f   => .fault f
        | .refused r => .refused r

/-- The state with an instruction word of the opcode table stored where step fetches next. A word that only the FULL
profile decodes also selects that profile, or step could not run it. notes/assumptions/2.md, notes/assumptions/10.md. -/
def State.withFetchWord (s : State) (nbits w : Nat) : State :=
  (s.placeWord (BitVec.ofNat 16 (w % 2 ^ nbits))).selectProfileFor (BitVec.ofNat 16 (w % 2 ^ nbits))

end Sys2Proof.Machine
end

