-- ==== Sys2Proof/Machine/Driver.lean ====
section
/-! DEFINITION. What the host may do to the machine, whole list (spec/10_state.md R45 to R52, spec/60_exceptions.md R289). Each
operation is one transaction, performed between steps (R52, R70). -/

namespace Sys2Proof.Machine

/-- One operation of the driver (R289). -/
inductive DriverOp where
  /-- `reset()` (R45). -/
  | reset
  /-- `loadProgram(bytes, origin)` (R46). -/
  | loadProgram (bytes : List Byte) (origin : Nat)
  /-- `step()` (R47). -/
  | step
  /-- `takeRedrawFlag()` (R49). -/
  | takeRedrawFlag
  /-- The framebuffer view (R48). -/
  | readFramebuffer
  /-- The sound-timer view (R50). -/
  | readSoundTimer
  /-- `setKey(k, pressed)` (R51). -/
  | setKey (k : Fin 16) (pressed : Bool)
deriving DecidableEq, Repr

/-- What an operation hands back. -/
inductive DriverReply where
  /-- Nothing, or `Ok`. -/
  | ok
  /-- `Err(ProgramTooLarge)`, recoverable and no step fault (R263). -/
  | programTooLarge
  /-- `Err(e)` from `step()`. -/
  | stepFault (f : Fault)
  /-- The model gives the step no meaning. -/
  | stepRefused (r : Refusal)
  | redrawFlag (b : Bool)
  | framebuffer (fb : Framebuffer)
  | soundTimer (v : Byte)
deriving DecidableEq, Repr

/-- `reset()` (R300): legal in any state. The parameters are the machine's own, and the environment's random bytes run on
(R41). -/
def driverReset (s : State) : State := { State.reset with config := s.config, draws := s.draws }

/-- `loadProgram` (R302, R303): rejects an image that does not fit and writes nothing; else it writes the image and
nothing else. -/
def driverLoad (bytes : List Byte) (origin : Nat) (s : State) : State × DriverReply :=
  if origin + bytes.length > memSize then (s, .programTooLarge) else (s.setBytes origin bytes, .ok)

/-- `step()` with the state it leaves when it faults (R100, R101, R107). -/
def driverStep (s : State) : State × DriverReply :=
  match step s with
  | .next t    => (t, .ok)
  | .fault f   => (s.enterFaulted f, .stepFault f)
  | .refused r => (s, .stepRefused r)

/-- One operation of the driver. -/
def DriverOp.perform (op : DriverOp) (s : State) : State × DriverReply :=
  match op with
  | .reset                    => (driverReset s, .ok)
  | .loadProgram bytes origin => driverLoad bytes origin s
  | .step                     => driverStep s
  | .takeRedrawFlag           => ({ s with needsRedraw := false }, .redrawFlag s.needsRedraw)
  | .readFramebuffer          => (s, .framebuffer s.fb)
  | .readSoundTimer           => (s, .soundTimer s.ST)
  | .setKey k pressed         => ({ s with key := s.key.set k.val pressed }, .ok)

/-- A session: the driver's operations one after another (R52, R71). -/
def runDriver : List DriverOp → State → State
  | [], s        => s
  | op :: ops, s => runDriver ops (op.perform s).1

end Sys2Proof.Machine
end

