-- ==== Sys2Proof/Safety.lean ====
section
/-! DEFINITION. The terms in which claims are stated: the machine's invariant, the parts of the state and what a step may
touch of them. -/

namespace Sys2Proof.Machine

/-! ### The invariant -/

/-- The memory is in canonical form. -/
abbrev State.memoryWf (s : State) : Prop := Memory.wf s.config.font s.memory

/-- Every live entry of the call stack is an address an instruction can be fetched from (spec/41_control_flow.md R123). -/
abbrev State.stackWf (s : State) : Prop := ∀ k : Fin 16, k.val < s.sp.val → s.stack[k].toNat ≤ 0xFFE

/-- The largest program counter that an instruction can leave (spec/40_step_cycle.md R106; under FULL,
spec/47_full_profile.md R231). -/
def pcBound : Profile → Nat
  | .reference => 0x1002
  | .full _    => 0x10FE

/-- The program counter is one that R106 calls reachable. -/
abbrev State.pcWf (s : State) : Prop := s.pc.toNat ≤ pcBound s.config.profile

/-- In the reference profile `I` names a byte of memory (spec/10_state.md R25). -/
abbrev State.indexWf (s : State) : Prop := s.config.profile = .reference → s.I.toNat ≤ 0xFFF

/-- The invariant that every operation of the driver keeps. -/
abbrev State.Inv (s : State) : Prop := s.memoryWf ∧ s.stackWf ∧ s.pcWf ∧ s.indexWf

/-! ### Frames -/

/-- The parts of the state. -/
inductive Part where
  | memory | V | I | pc | stack | sp | DT | ST | fb | key | needsRedraw | status | config | draws
deriving DecidableEq, Repr

/-- A part holds the same in two states; memory is compared byte by byte. -/
def Part.same (p : Part) (s t : State) : Prop :=
  match p with
  | .memory      => ∀ a, t.byteAt a = s.byteAt a
  | .V           => ∀ r, t.reg r = s.reg r
  | .I           => t.I = s.I
  | .pc          => t.pc = s.pc
  | .stack       => t.stack = s.stack
  | .sp          => t.sp = s.sp
  | .DT          => t.DT = s.DT
  | .ST          => t.ST = s.ST
  | .fb          => t.fb = s.fb
  | .key         => t.key = s.key
  | .needsRedraw => t.needsRedraw = s.needsRedraw
  | .status      => t.status = s.status
  | .config      => t.config = s.config
  | .draws       => t.draws = s.draws

/-- Every part but those listed is unchanged from `s` to `t`. -/
def OnlyTouches (parts : List Part) (s t : State) : Prop := ∀ p, p ∉ parts → p.same s t

/-- The parts that an instruction may write, an upper bound over every sub-parameter (the rules of spec/41_control_flow.md to spec/47_full_profile.md); the timer
tick is the step's. `draws` counts the free values of `Cxnn` and is the model's own. -/
def writtenParts : Instr → List Part
  | .ret                                                  => [.pc, .sp]
  | .call _                                               => [.pc, .sp, .stack]
  | .jp _ | .jpV0 _                                       => [.pc]
  | .seImm _ _ | .sneImm _ _ | .seReg _ _ | .sneReg _ _   => [.pc]
  | .sknp _ | .skp _                                      => [.pc]
  | .ldImm _ _ | .addImm _ _ | .ldReg _ _ | .ldVxDt _     => [.pc, .V]
  | .andReg _ _ | .orReg _ _ | .xorReg _ _                => [.pc, .V]
  | .addReg _ _ | .subReg _ _ | .subn _ _                 => [.pc, .V]
  | .shr _ _ | .shl _ _ | .ldVxK _                        => [.pc, .V]
  | .rnd _ _                                              => [.pc, .V, .draws]
  | .ldI _ | .ldF _ | .addI _                             => [.pc, .I]
  | .ldVxI _                                              => [.pc, .V, .I]
  | .ldB _                                                => [.pc, .memory]
  | .ldIVx _                                              => [.pc, .memory, .I]
  | .drw _ _ _                                            => [.pc, .V, .fb, .needsRedraw]
  | .cls                                                  => [.pc, .fb, .needsRedraw]
  | .ldDtVx _                                             => [.pc, .DT]
  | .ldStVx _                                             => [.pc, .ST]

/-- The registers that an instruction may change, an upper bound: its destination, `VF` where the spec names a flag, and `V0` to `Vx` for
`Fx65` (spec/10_state.md R23, R24). -/
def mayChangeReg : Instr → Nibble → Bool
  | .ldImm x _, r | .addImm x _, r | .ldReg x _, r | .andReg x _, r => r == x
  | .rnd x _, r | .ldVxDt x, r | .ldVxK x, r                        => r == x
  | .addReg x _, r | .subReg x _, r                                 => r == x || r == vf
  | .orReg x _, r | .xorReg x _, r                                  => r == x || r == vf
  | .shr x _, r | .shl x _, r | .subn x _, r                        => r == x || r == vf
  | .drw _ _ _, r                                                   => r == vf
  | .ldVxI x, r                                                     => r.toNat ≤ x.toNat
  | .ret, _ | .jp _, _ | .call _, _ | .seImm _ _, _ | .sneImm _ _, _ | .seReg _ _, _ | .sneReg _ _, _ => false
  | .jpV0 _, _ | .sknp _, _ | .skp _, _ | .ldI _, _ | .ldF _, _ | .addI _, _ | .ldB _, _ | .ldIVx _, _ => false
  | .cls, _ | .ldDtVx _, _ | .ldStVx _, _                           => false

/-! ### Sprites -/

/-- Bit `b` of row `r` of the sprite at `I` is set, the leftmost bit being bit 7 (R13, R180). -/
def spriteBit (s : State) (r b : Nat) : Prop := (s.byteAt (s.I.toNat + r)).getLsbD (7 - b) = true

/-- Where bit `b` of row `r` lands (R183, R184). -/
def spriteTarget (x y : Nibble) (s : State) (r b : Nat) : PixelTarget :=
  pixelIndex s.config.drawEdge ((s.reg x).toNat % 64 + b) ((s.reg y).toNat % 32 + r)

/-- Some set bit of the sprite lands on framebuffer entry `k` (`s[k] = 1` of R186). -/
def SpriteCovers (x y n : Nibble) (s : State) (k : Fin 2048) : Prop :=
  ∃ r b : Nat, r < n.toNat ∧ b < 8 ∧ spriteBit s r b ∧ spriteTarget x y s r b = .entry k

/-- The sprite's rows are in memory (R180). -/
def RowsReadable (n : Nibble) (s : State) : Prop := n.toNat = 0 ∨ s.I.toNat + n.toNat ≤ memSize

end Sys2Proof.Machine
end

