-- ==== Sys2Proof/Certificates/Slice0/Obligations.lean ====
section
/-! DEFINITION. The statements about the machine, for the provers. Each docstring names the rules of spec/ it formalises. -/

open Sys2Proof Sys2Proof.Machine

/-! ### Encoding -/

/-- Words written out from the spec's encodings decode to the instructions they stand for (R84, R85, R222). -/
def Obligations.DecodeReadsWrittenOutWords : Prop :=
  decode .reference 0x00EE = .ok .ret ∧
  decode .reference 0x220A = .ok (.call 0x20A) ∧
  decode .reference 0x4306 = .ok (.sneImm 3 0x06) ∧
  decode .reference 0x8125 = .ok (.subReg 1 2) ∧
  decode .reference 0xA300 = .ok (.ldI 0x300) ∧
  decode .reference 0xD12F = .ok (.drw 1 2 0xF) ∧
  decode .reference 0xE2A1 = .ok (.sknp 2) ∧
  decode .reference 0xF365 = .ok (.ldVxI 3) ∧
  decode .reference 0x00E0 = .error (.unknownOpcode 0x00E0) ∧
  decode (.full takenQuirks) 0x00E0 = .ok .cls ∧
  decode (.full takenQuirks) 0x812E = .ok (.shl 1 2) ∧
  decode (.full takenQuirks) 0xB123 = .ok (.jpV0 0x123)

/-- Decoding the word of a well-formed instruction gives it back, with every operand (R82 to R85, R222). -/
def Obligations.DecodeInvertsEncode : Prop :=
  ∀ (p : Profile) (i : Instr), i.wellFormed p = true → decode p (encode i) = .ok i

/-- A word that decodes is the word of that instruction, and the instruction is of the profile: no bit of an accepted word
is dropped (R87). -/
def Obligations.DecodedWordIsTheInstructionsWord : Prop :=
  ∀ (p : Profile) (w : Word) (i : Instr), decode p w = .ok i → encode i = w ∧ i.wellFormed p = true

/-- A word decodes iff it selects a row of the profile's table, and it decodes to an instruction of a row it selects
(R85, R222). -/
def Obligations.WordDecodesIffItSelectsARow : Prop :=
  ∀ (p : Profile) (w : Word),
    ((∃ i, decode p w = .ok i) ↔ ∃ r ∈ opcodeRows p, w &&& r.mask = r.bits) ∧
    (∀ i, decode p w = .ok i → i.row ∈ opcodeRows p ∧ w &&& i.row.mask = i.row.bits)

/-- No word selects two rows, under either profile (R84, R222). -/
def Obligations.WordSelectsAtMostOneRow : Prop :=
  ∀ (p : Profile) (w : Word) (r₁ r₂ : OpcodeRow), r₁ ∈ opcodeRows p → r₂ ∈ opcodeRows p →
    w &&& r₁.mask = r₁.bits → w &&& r₂.mask = r₂.bits → r₁ = r₂

/-- The illegal words of the reference profile, by region (R89, which the spec derives from R84). -/
def Obligations.IllegalWordsOfTheReferenceProfile : Prop :=
  ∀ w : Word, decode .reference w = .error (.unknownOpcode w) ↔
    (fieldF w = 0x0 ∧ w ≠ 0x00EE) ∨ fieldF w = 0x5 ∨ fieldF w = 0x9 ∨ fieldF w = 0xB ∨
    (fieldF w = 0x8 ∧ fieldN w ≠ 0x0 ∧ fieldN w ≠ 0x2 ∧ fieldN w ≠ 0x4 ∧ fieldN w ≠ 0x5) ∨
    (fieldF w = 0xE ∧ fieldNN w ≠ 0xA1) ∨
    (fieldF w = 0xF ∧ fieldNN w ≠ 0x07 ∧ fieldNN w ≠ 0x15 ∧ fieldNN w ≠ 0x18 ∧ fieldNN w ≠ 0x29 ∧
      fieldNN w ≠ 0x33 ∧ fieldNN w ≠ 0x65)

/-- FULL keeps the meaning of every word of the reference profile, and rejects every `0nnn` but `00E0` and `00EE` (R220). -/
def Obligations.FullProfileExtendsTheReferenceProfile : Prop :=
  ∀ (q : Quirks) (w : Word),
    (∀ i, decode .reference w = .ok i → decode (.full q) w = .ok i) ∧
    (fieldF w = 0x0 → w ≠ 0x00E0 → w ≠ 0x00EE → decode (.full q) w = .error (.unknownOpcode w))

/-! ### The step -/

/-- When the word at `pc` decodes to an instruction, a step is that instruction and then the timer tick; its fault or
refusal is the step's (R100, R108). -/
def Obligations.StepRunsTheDecodedInstruction : Prop :=
  ∀ (s : State) (i : Instr), s.status = .running → s.pc.toNat + 1 < memSize →
    decode s.config.profile (wordOfBytes (s.byteAt s.pc.toNat) (s.byteAt (s.pc.toNat + 1))) = .ok i →
    (∀ t, exec i s = .next t → step s = .next t.tickTimers) ∧
    (∀ f, exec i s = .fault f → step s = .fault f) ∧
    (∀ r, exec i s = .refused r → step s = .refused r)

/-- With the two bytes of a well-formed instruction's word at `pc`, the high byte first, a step runs it (R66, R80, R100). -/
def Obligations.StepRunsTheEncodedInstruction : Prop :=
  ∀ (s : State) (i : Instr) (t : State), s.status = .running → s.pc.toNat + 1 < memSize → i.wellFormed s.config.profile = true →
    (s.byteAt s.pc.toNat).toNat * 256 + (s.byteAt (s.pc.toNat + 1)).toNat = (encode i).toNat →
    exec i s = .next t → step s = .next t.tickTimers

/-- Fetch is big-endian at any `pc`, even or odd, whose second byte is in memory, and faults with `pc` otherwise (R102). -/
def Obligations.FetchReadsABigEndianWordOrFaults : Prop :=
  ∀ s : State,
    (s.pc.toNat + 1 < memSize →
      ∃ w, s.fetch = .ok w ∧ w.toNat = (s.byteAt s.pc.toNat).toNat * 256 + (s.byteAt (s.pc.toNat + 1)).toNat) ∧
    (s.pc.toNat + 1 ≥ memSize → s.fetch = .error (.addressOutOfBounds s.pc.toNat .fetch) ∧
      (s.status = .running → step s = .fault (.addressOutOfBounds s.pc.toNat .fetch)))

/-- A fetched word that matches no row of the profile's table stops the machine with the word: in the reference profile by
R88, under FULL by R220 and R222, which the spec marks as general knowledge (notes/assumptions/12.md). -/
def Obligations.UnmatchedWordFaultsWithTheWord : Prop :=
  ∀ (s : State) (w : Word), s.status = .running → s.fetch = .ok w →
    (∀ r ∈ opcodeRows s.config.profile, w &&& r.mask ≠ r.bits) → step s = .fault (.unknownOpcode w)

/-- A faulted machine answers its fault again and changes nothing; of the driver's operations only reset makes it run
(R101). -/
def Obligations.FaultedMachineAnswersItsFaultUntilReset : Prop :=
  ∀ (s : State) (f : Fault), s.status = .faulted f →
    step s = .fault f ∧ driverStep s = (s, .stepFault f) ∧ (driverReset s).status = .running ∧
    (∀ op : DriverOp, op ≠ .reset → (op.perform s).1.status = .faulted f)

/-- A step that faults leaves the state as it was but for the status, which records the fault (R107). -/
def Obligations.FaultingStepIsUndone : Prop :=
  ∀ (s : State) (f : Fault), s.status = .running → step s = .fault f →
    driverStep s = ({ s with status := .faulted f }, .stepFault f)

/-- A step that does not fault is one instruction followed by one tick: each timer is one lower than the instruction left
it, a timer at 0 stays, and nothing else changes (R280). -/
def Obligations.EveryStepTicksBothTimersOnce : Prop :=
  ∀ s t : State, step s = .next t →
    ∃ w i u, s.fetch = .ok w ∧ decode s.config.profile w = .ok i ∧ exec i s = .next u ∧ t.DT.toNat = u.DT.toNat - 1 ∧
      t.ST.toNat = u.ST.toNat - 1 ∧ t = { u with DT := t.DT, ST := t.ST }

/-- Timers across a step that runs `i`: written ones end one below the value written, others one below their old value
(R204 to R206, R280). -/
def Obligations.TimersCountDownFromTheLastWrite : Prop :=
  ∀ (s t : State) (i : Instr) (w : Word), s.fetch = .ok w → decode s.config.profile w = .ok i → step s = .next t →
    ((∀ x, i ≠ .ldDtVx x) → t.DT.toNat = s.DT.toNat - 1) ∧
    ((∀ x, i ≠ .ldStVx x) → t.ST.toNat = s.ST.toNat - 1) ∧
    (∀ x, i = .ldDtVx x → t.DT.toNat = (s.reg x).toNat - 1) ∧
    (∀ x, i = .ldStVx x → t.ST.toNat = (s.reg x).toNat - 1)

/-! ### Control transfer -/

/-- CALL pushes its own address and jumps, or faults on a full stack (R120). -/
def Obligations.CallPushesItsOwnAddress : Prop :=
  ∀ (nnn : Address) (s : State), (encode (.call nnn)).toNat = 0x2000 + nnn.toNat ∧
    (s.sp.val < 16 → ∃ t, exec (.call nnn) s = .next t ∧ t.pc.toNat = nnn.toNat ∧ t.sp.val = s.sp.val + 1 ∧
      (∀ k : Fin 16, t.stack[k] = if k.val = s.sp.val then s.pc else s.stack[k]) ∧
      OnlyTouches [.pc, .sp, .stack] s t) ∧
    (s.sp.val = 16 → exec (.call nnn) s = .fault (.stackOverflow s.pc))

/-- RET pops an address and goes two past it, or faults on an empty stack; the entry popped is not cleared (R122). -/
def Obligations.RetResumesAfterTheAddressPopped : Prop :=
  ∀ s : State, (encode .ret).toNat = 0x00EE ∧
    (∀ k : Fin 16, k.val + 1 = s.sp.val → ∃ t, exec .ret s = .next t ∧ t.pc.toNat = (s.stack[k].toNat + 2) % 65536 ∧
      t.sp.val = k.val ∧ OnlyTouches [.pc, .sp] s t) ∧
    (s.sp.val = 0 → exec .ret s = .fault (.stackUnderflow s.pc))

/-- Two steps, a CALL at `c` and a RET at its target, end at `c + 2` with the stack pointer as before and the timers two
lower (R128, which the spec derives from R120 and R122). -/
def Obligations.CallThenRetResumesAfterTheCallSite : Prop :=
  ∀ (s : State) (nnn : Address), s.status = .running → s.sp.val < 16 → s.pc.toNat + 1 < memSize → nnn.toNat + 1 < memSize →
    wordOfBytes (s.byteAt s.pc.toNat) (s.byteAt (s.pc.toNat + 1)) = encode (.call nnn) →
    wordOfBytes (s.byteAt nnn.toNat) (s.byteAt (nnn.toNat + 1)) = encode .ret →
    ∃ t u, step s = .next t ∧ step t = .next u ∧ u.pc.toNat = s.pc.toNat + 2 ∧ u.sp = s.sp ∧
      u.DT.toNat = s.DT.toNat - 2 ∧ u.ST.toNat = s.ST.toNat - 2 ∧ OnlyTouches [.pc, .stack, .DT, .ST] s u

/-- JP sets `pc` and nothing else, whatever the target (R124). -/
def Obligations.JumpSetsOnlyThePc : Prop :=
  ∀ (nnn : Address) (s : State), (encode (.jp nnn)).toNat = 0x1000 + nnn.toNat ∧
    ∃ t, exec (.jp nnn) s = .next t ∧ t.pc.toNat = nnn.toNat ∧ OnlyTouches [.pc] s t

/-- `Bnnn` adds `V0`, or under `JUMP_OFFSET_REG = VX` the register that the top digit of `nnn` names (R231, general
knowledge in the spec). -/
def Obligations.OffsetJumpAddsTheSelectedRegister : Prop :=
  ∀ (nnn : Address) (s : State), ∃ t, exec (.jpV0 nnn) s = .next t ∧ OnlyTouches [.pc] s t ∧
    (s.quirks.jumpOffsetReg = .v0 → t.pc.toNat = (nnn.toNat + (s.reg 0).toNat) % 65536) ∧
    (s.quirks.jumpOffsetReg = .vx → ∀ x : Nibble, x.toNat = nnn.toNat / 256 →
      t.pc.toNat = (nnn.toNat + (s.reg x).toNat) % 65536)

/-- `3xnn` advances by 4 when `V[x] = nn` and by 2 otherwise; `4xnn` is its negation (R126, R127). -/
def Obligations.ImmediateSkipsAdvanceByFourOrTwo : Prop :=
  ∀ (x : Nibble) (nn : Byte) (s : State),
    (encode (.seImm x nn)).toNat = 0x3000 + x.toNat * 256 + nn.toNat ∧
    (encode (.sneImm x nn)).toNat = 0x4000 + x.toNat * 256 + nn.toNat ∧
    (∃ t, exec (.seImm x nn) s = .next t ∧ OnlyTouches [.pc] s t ∧
      t.pc.toNat = (s.pc.toNat + if s.reg x = nn then 4 else 2) % 65536) ∧
    (∃ t, exec (.sneImm x nn) s = .next t ∧ OnlyTouches [.pc] s t ∧
      t.pc.toNat = (s.pc.toNat + if s.reg x = nn then 2 else 4) % 65536)

/-- `5xy0` and `9xy0` compare two registers (R224, R225, general knowledge in the spec). -/
def Obligations.RegisterSkipsAdvanceByFourOrTwo : Prop :=
  ∀ (x y : Nibble) (s : State),
    (∃ t, exec (.seReg x y) s = .next t ∧ OnlyTouches [.pc] s t ∧
      t.pc.toNat = (s.pc.toNat + if s.reg x = s.reg y then 4 else 2) % 65536) ∧
    (∃ t, exec (.sneReg x y) s = .next t ∧ OnlyTouches [.pc] s t ∧
      t.pc.toNat = (s.pc.toNat + if s.reg x = s.reg y then 2 else 4) % 65536)

/-! ### Registers and the ALU -/

/-- The moves and the immediate add: the destination gets the value, modulo 256, and no flag is written (R140, R141, R143). -/
def Obligations.MovesAndImmediateAddWriteOnlyTheirDestination : Prop :=
  ∀ (x y : Nibble) (nn : Byte) (s : State),
    (encode (.ldImm x nn)).toNat = 0x6000 + x.toNat * 256 + nn.toNat ∧
    (encode (.addImm x nn)).toNat = 0x7000 + x.toNat * 256 + nn.toNat ∧
    (encode (.ldReg x y)).toNat = 0x8000 + x.toNat * 256 + y.toNat * 16 ∧
    (∃ t, exec (.ldImm x nn) s = .next t ∧ t.pc.toNat = (s.pc.toNat + 2) % 65536 ∧ OnlyTouches [.pc, .V] s t ∧
      ∀ r, t.reg r = if r = x then nn else s.reg r) ∧
    (∃ t, exec (.addImm x nn) s = .next t ∧ t.pc.toNat = (s.pc.toNat + 2) % 65536 ∧ OnlyTouches [.pc, .V] s t ∧
      ∀ r, (t.reg r).toNat = if r = x then ((s.reg x).toNat + nn.toNat) % 256 else (s.reg r).toNat) ∧
    (∃ t, exec (.ldReg x y) s = .next t ∧ t.pc.toNat = (s.pc.toNat + 2) % 65536 ∧ OnlyTouches [.pc, .V] s t ∧
      ∀ r, t.reg r = if r = x then s.reg y else s.reg r)

/-- AND writes the bitwise product to its destination and no flag (R144). -/
def Obligations.AndWritesOnlyItsDestination : Prop :=
  ∀ (x y : Nibble) (s : State), (encode (.andReg x y)).toNat = 0x8000 + x.toNat * 256 + y.toNat * 16 + 2 ∧
    ∃ t, exec (.andReg x y) s = .next t ∧ t.pc.toNat = (s.pc.toNat + 2) % 65536 ∧
    OnlyTouches [.pc, .V] s t ∧ (∀ r, r ≠ x → t.reg r = s.reg r) ∧
    (∀ b : Nat, (t.reg x).getLsbD b = ((s.reg x).getLsbD b && (s.reg y).getLsbD b))

/-- `8xy4`: the sum modulo 256, and `VF` the carry of the exact sum, written last, so with `x = F` the flag remains (R146). -/
def Obligations.AddWritesTheSumThenTheCarry : Prop :=
  ∀ (x y : Nibble) (s : State), (encode (.addReg x y)).toNat = 0x8000 + x.toNat * 256 + y.toNat * 16 + 4 ∧
    ∃ t, exec (.addReg x y) s = .next t ∧ t.pc.toNat = (s.pc.toNat + 2) % 65536 ∧
    OnlyTouches [.pc, .V] s t ∧
    ∀ r, (t.reg r).toNat = if r = 0xF then (if (s.reg x).toNat + (s.reg y).toNat > 255 then 1 else 0)
      else if r = x then ((s.reg x).toNat + (s.reg y).toNat) % 256 else (s.reg r).toNat

/-- `8xy5`: the difference modulo 256, and `VF` 0 on a borrow and else 1, written last (R147). -/
def Obligations.SubWritesTheDifferenceThenNotBorrow : Prop :=
  ∀ (x y : Nibble) (s : State), (encode (.subReg x y)).toNat = 0x8000 + x.toNat * 256 + y.toNat * 16 + 5 ∧
    ∃ t, exec (.subReg x y) s = .next t ∧ t.pc.toNat = (s.pc.toNat + 2) % 65536 ∧
    OnlyTouches [.pc, .V] s t ∧
    ∀ r, (t.reg r).toNat = if r = 0xF then (if (s.reg x).toNat < (s.reg y).toNat then 0 else 1)
      else if r = x then ((s.reg x).toNat + 256 - (s.reg y).toNat) % 256 else (s.reg r).toNat

/-- `8xy7`: `V[y] - V[x]`, and `VF` 0 on a borrow and else 1, written last (R229, general knowledge in the spec). -/
def Obligations.SubnWritesTheReverseDifferenceThenNotBorrow : Prop :=
  ∀ (x y : Nibble) (s : State), ∃ t, exec (.subn x y) s = .next t ∧ t.pc.toNat = (s.pc.toNat + 2) % 65536 ∧
    OnlyTouches [.pc, .V] s t ∧
    ∀ r, (t.reg r).toNat = if r = 0xF then (if (s.reg y).toNat < (s.reg x).toNat then 0 else 1)
      else if r = x then ((s.reg y).toNat + 256 - (s.reg x).toNat) % 256 else (s.reg r).toNat

/-- `8xy1` and `8xy3`: OR and XOR into the destination; `VF` is then cleared under `LOGIC_RESETS_VF` and else untouched
(R226, R227, general knowledge in the spec). -/
def Obligations.OrAndXorClearVfOnlyUnderLogicResetsVf : Prop :=
  ∀ (x y : Nibble) (s : State),
    (∃ t, exec (.orReg x y) s = .next t ∧ t.pc.toNat = (s.pc.toNat + 2) % 65536 ∧ OnlyTouches [.pc, .V] s t ∧
      ∀ r, t.reg r = if r = 0xF ∧ s.quirks.logicResetsVF = true then 0 else if r = x then s.reg x ||| s.reg y else s.reg r) ∧
    (∃ t, exec (.xorReg x y) s = .next t ∧ t.pc.toNat = (s.pc.toNat + 2) % 65536 ∧ OnlyTouches [.pc, .V] s t ∧
      ∀ r, t.reg r = if r = 0xF ∧ s.quirks.logicResetsVF = true then 0 else if r = x then s.reg x ^^^ s.reg y else s.reg r)

/-- `8xy6` and `8xyE`: half and double of the operand that `SHIFT_SOURCE` selects, and `VF` the bit shifted out, written
last (R228, R230, general knowledge in the spec). -/
def Obligations.ShiftsWriteTheBitShiftedOut : Prop :=
  ∀ (x y : Nibble) (s : State) (v : Byte), v = (if s.quirks.shiftSource = .vy then s.reg y else s.reg x) →
    (∃ t, exec (.shr x y) s = .next t ∧ t.pc.toNat = (s.pc.toNat + 2) % 65536 ∧ OnlyTouches [.pc, .V] s t ∧
      ∀ r, (t.reg r).toNat = if r = 0xF then v.toNat % 2 else if r = x then v.toNat / 2 else (s.reg r).toNat) ∧
    (∃ t, exec (.shl x y) s = .next t ∧ t.pc.toNat = (s.pc.toNat + 2) % 65536 ∧ OnlyTouches [.pc, .V] s t ∧
      ∀ r, (t.reg r).toNat = if r = 0xF then v.toNat / 128 else if r = x then v.toNat * 2 % 256 else (s.reg r).toNat)

/-- `Cxnn`: the next random byte masked with `nn`, one draw per execution (R152). That the bytes are a free sequence read
through a counter is the model's form, notes/assumptions/4.md; the statement holds whatever they are. -/
def Obligations.RandomMasksOneFreshDraw : Prop :=
  ∀ (x : Nibble) (nn : Byte) (s : State), ∃ t, exec (.rnd x nn) s = .next t ∧ t.pc.toNat = (s.pc.toNat + 2) % 65536 ∧
    t.draws = s.draws + 1 ∧ OnlyTouches [.pc, .V, .draws] s t ∧ (∀ r, r ≠ x → t.reg r = s.reg r) ∧
    (∀ b : Nat, (t.reg x).getLsbD b = ((Config.randomByte s.draws).getLsbD b && nn.getLsbD b))

/-! ### Index register and memory -/

/-- `Annn` and `Fx29`: `I` gets the address, or the exact product `V[x] * 5` (R160, R161). -/
def Obligations.IndexLoadsAreExact : Prop :=
  ∀ (nnn : Address) (x : Nibble) (s : State),
    (encode (.ldI nnn)).toNat = 0xA000 + nnn.toNat ∧ (encode (.ldF x)).toNat = 0xF000 + x.toNat * 256 + 0x29 ∧
    (∃ t, exec (.ldI nnn) s = .next t ∧ t.pc.toNat = (s.pc.toNat + 2) % 65536 ∧ OnlyTouches [.pc, .I] s t ∧
      t.I.toNat = nnn.toNat) ∧
    (∃ t, exec (.ldF x) s = .next t ∧ t.pc.toNat = (s.pc.toNat + 2) % 65536 ∧ OnlyTouches [.pc, .I] s t ∧
      t.I.toNat = (s.reg x).toNat * 5)

/-- `Fx1E`: `I + V[x]` modulo 2^16 and no flag (R234, general knowledge in the spec). -/
def Obligations.IndexAddWrapsAtSixteenBits : Prop :=
  ∀ (x : Nibble) (s : State), ∃ t, exec (.addI x) s = .next t ∧ t.pc.toNat = (s.pc.toNat + 2) % 65536 ∧
    OnlyTouches [.pc, .I] s t ∧ t.I.toNat = (s.I.toNat + (s.reg x).toNat) % 65536

/-- `Fx33`: the three decimal digits at `I`, `I + 1`, `I + 2` and no other byte; past the memory it writes nothing and faults
with the lowest address out of range (R162, R163). -/
def Obligations.DecimalStoreWritesThreeDigits : Prop :=
  ∀ (x : Nibble) (s : State), (encode (.ldB x)).toNat = 0xF000 + x.toNat * 256 + 0x33 ∧
    (s.I.toNat + 2 < memSize → ∃ t, exec (.ldB x) s = .next t ∧ t.pc.toNat = (s.pc.toNat + 2) % 65536 ∧
      OnlyTouches [.pc, .memory] s t ∧
      (t.byteAt s.I.toNat).toNat = (s.reg x).toNat / 100 ∧
      (t.byteAt (s.I.toNat + 1)).toNat = (s.reg x).toNat / 10 % 10 ∧
      (t.byteAt (s.I.toNat + 2)).toNat = (s.reg x).toNat % 10 ∧
      (∀ a, a < s.I.toNat ∨ s.I.toNat + 2 < a → t.byteAt a = s.byteAt a)) ∧
    (s.I.toNat + 2 ≥ memSize → exec (.ldB x) s = .fault (.addressOutOfBounds (max s.I.toNat memSize) .write))

/-- `Fx65`: `V0` to `Vx` from `I` up, no other register and no byte of memory; past the memory it faults with the lowest
address out of range (R164). `I` stays in the reference profile. That it advances under FULL's `LOADSTORE_INC_I` is general
knowledge in the spec (R220, R235; notes/assumptions/6.md, notes/assumptions/12.md). -/
def Obligations.RegisterLoadReadsUpFromTheIndex : Prop :=
  ∀ (x : Nibble) (s : State), (encode (.ldVxI x)).toNat = 0xF000 + x.toNat * 256 + 0x65 ∧
    (s.I.toNat + x.toNat < memSize → ∃ t, exec (.ldVxI x) s = .next t ∧ t.pc.toNat = (s.pc.toNat + 2) % 65536 ∧
      OnlyTouches [.pc, .V, .I] s t ∧
      (∀ r : Nibble, t.reg r = if r.toNat ≤ x.toNat then s.byteAt (s.I.toNat + r.toNat) else s.reg r) ∧
      (s.config.profile = .reference → t.I = s.I) ∧
      t.I.toNat = (if s.quirks.loadStoreIncI = true then (s.I.toNat + x.toNat + 1) % 65536 else s.I.toNat)) ∧
    (s.I.toNat + x.toNat ≥ memSize → exec (.ldVxI x) s = .fault (.addressOutOfBounds (max s.I.toNat memSize) .read))

/-- `Fx55`: `V0` to `Vx` stored from `I` up and no other byte, or the fault of the lowest address out of range (R235,
general knowledge in the spec). -/
def Obligations.RegisterStoreWritesUpFromTheIndex : Prop :=
  ∀ (x : Nibble) (s : State),
    (s.I.toNat + x.toNat < memSize → ∃ t, exec (.ldIVx x) s = .next t ∧ t.pc.toNat = (s.pc.toNat + 2) % 65536 ∧
      OnlyTouches [.pc, .memory, .I] s t ∧
      (∀ r : Nibble, r.toNat ≤ x.toNat → t.byteAt (s.I.toNat + r.toNat) = s.reg r) ∧
      (∀ a, a < s.I.toNat ∨ s.I.toNat + x.toNat < a → t.byteAt a = s.byteAt a) ∧
      t.I.toNat = (if s.quirks.loadStoreIncI = true then (s.I.toNat + x.toNat + 1) % 65536 else s.I.toNat)) ∧
    (s.I.toNat + x.toNat ≥ memSize → exec (.ldIVx x) s = .fault (.addressOutOfBounds (max s.I.toNat memSize) .write))

/-- Registers stored by `Fx55` come back with `Fx65` from the same `I`, whatever the registers hold in between (R71, R164). What
`Fx55` stores is general knowledge in the spec (R235; notes/assumptions/12.md). -/
def Obligations.StoredRegistersLoadBack : Prop :=
  ∀ (x : Nibble) (s t u : State), exec (.ldIVx x) s = .next t → u.memory = t.memory → u.config = t.config → u.I = s.I →
    ∃ w, exec (.ldVxI x) u = .next w ∧ ∀ r : Nibble, r.toNat ≤ x.toNat → w.reg r = s.reg r

/-- `MemRead` and `MemWrite`: a read gives the byte last written there, a write changes no other address, and both fault at
4096 and above (R62, R63, R71). -/
def Obligations.MemReadGivesTheLastWrite : Prop :=
  ∀ (s : State) (a b : Nat) (v : Byte),
    (a < memSize → ∃ t, s.memWrite a v = .ok t ∧ OnlyTouches [.memory] s t ∧
      t.memRead b = if b = a then .ok v else s.memRead b) ∧
    (a ≥ memSize → s.memWrite a v = .error (.addressOutOfBounds a .write) ∧
      s.memRead a = .error (.addressOutOfBounds a .read))

/-! ### Draw -/

/-- `pixelIndex` under the three values of `DRAW_EDGE` (R184). -/
def Obligations.PixelIndexFollowsDrawEdge : Prop :=
  ∀ px py : Nat,
    (∃ k : Fin 2048, pixelIndex .wrap px py = .entry k ∧ k.val = py % 32 * 64 + px % 64) ∧
    (px < 64 ∧ py < 32 → ∃ k : Fin 2048, pixelIndex .clip px py = .entry k ∧ k.val = py * 64 + px) ∧
    (¬(px < 64 ∧ py < 32) → pixelIndex .clip px py = .none) ∧
    (py * 64 + px < 2048 → ∃ k : Fin 2048, pixelIndex .flat px py = .entry k ∧ k.val = py * 64 + px) ∧
    (py * 64 + px ≥ 2048 → pixelIndex .flat px py = .outOfRange (py * 64 + px))

/-- `Dxyn` toggles exactly the pixels its set bits land on, whatever their order, and `VF` says whether one of them was lit
(R180, R181, R185, R186). The last premise holds of every sprite under WRAP and CLIP. -/
def Obligations.DrawTogglesExactlyTheCoveredPixels : Prop :=
  ∀ (x y n : Nibble) (s : State), RowsReadable n s →
    (∀ r b k : Nat, r < n.toNat → b < 8 → spriteBit s r b → spriteTarget x y s r b ≠ .outOfRange k) →
    ∃ t, exec (.drw x y n) s = .next t ∧ t.pc.toNat = (s.pc.toNat + 2) % 65536 ∧ t.needsRedraw = true ∧
      OnlyTouches [.pc, .V, .fb, .needsRedraw] s t ∧
      (∀ k, SpriteCovers x y n s k → t.fb.get k = !s.fb.get k) ∧
      (∀ k, ¬SpriteCovers x y n s k → t.fb.get k = s.fb.get k) ∧
      (∀ r, r ≠ 0xF → t.reg r = s.reg r) ∧
      ((∃ k, SpriteCovers x y n s k ∧ s.fb.get k = true) → t.reg 0xF = 1) ∧
      ((∀ k, SpriteCovers x y n s k → s.fb.get k = false) → t.reg 0xF = 0)

/-- Under WRAP and CLIP a draw goes through exactly when its rows are in memory, and else faults with the lowest address out
of range (R180, R184). -/
def Obligations.DrawOnlyNeedsItsRowsUnderWrapAndClip : Prop :=
  ∀ (x y n : Nibble) (s : State), s.config.drawEdge ≠ .flat →
    (RowsReadable n s → ∃ t, exec (.drw x y n) s = .next t) ∧
    (¬RowsReadable n s → exec (.drw x y n) s = .fault (.addressOutOfBounds (max s.I.toNat memSize) .read))

/-- Under FLAT the first set bit, in row-then-bit order, whose index is 2048 or more faults with that index (R184, R265). -/
def Obligations.FlatDrawFaultsAtTheFirstBitPastTheScreen : Prop :=
  ∀ (x y n : Nibble) (s : State) (r b : Nat), s.config.drawEdge = .flat → RowsReadable n s →
    r < n.toNat → b < 8 → spriteBit s r b →
    ((s.reg y).toNat % 32 + r) * 64 + ((s.reg x).toNat % 64 + b) ≥ 2048 →
    (∀ r' b', r' < r ∨ (r' = r ∧ b' < b) → b' < 8 → spriteBit s r' b' →
      ((s.reg y).toNat % 32 + r') * 64 + ((s.reg x).toNat % 64 + b') < 2048) →
    exec (.drw x y n) s =
      .fault (.framebufferIndexOutOfRange (((s.reg y).toNat % 32 + r) * 64 + ((s.reg x).toNat % 64 + b)))

/-- Drawing the same sprite twice at the same place restores the framebuffer, and the second draw reports a collision iff
the first one lit a pixel (R186, R187). Coordinates in `VF` are left out: the first draw changes them. -/
def Obligations.DrawingTwiceRestoresTheFramebuffer : Prop :=
  ∀ (x y n : Nibble) (s t u : State), x ≠ 0xF → y ≠ 0xF → exec (.drw x y n) s = .next t → exec (.drw x y n) t = .next u →
    u.fb = s.fb ∧ ((∃ k, SpriteCovers x y n s k ∧ s.fb.get k = false) ↔ u.reg 0xF = 1)

/-- `Dxy0` draws no row: no pixel changes, `VF` is 0 and a redraw is due (R182). -/
def Obligations.DrawOfNoRowsClearsVfAndAsksForARedraw : Prop :=
  ∀ (x y : Nibble) (s : State), ∃ t, exec (.drw x y 0) s = .next t ∧ t.pc.toNat = (s.pc.toNat + 2) % 65536 ∧
    t.needsRedraw = true ∧ OnlyTouches [.pc, .V, .needsRedraw] s t ∧ ∀ r, t.reg r = if r = 0xF then 0 else s.reg r

/-- `00E0`: every pixel 0, a redraw due, no register changed (R223, general knowledge in the spec). -/
def Obligations.ClearScreenBlanksEveryPixel : Prop :=
  ∀ s : State, ∃ t, exec .cls s = .next t ∧ t.pc.toNat = (s.pc.toNat + 2) % 65536 ∧ t.needsRedraw = true ∧
    OnlyTouches [.pc, .fb, .needsRedraw] s t ∧ ∀ k, t.fb.get k = false

/-! ### Keys and timers -/

/-- `Fx07`, `Fx15` and `Fx18` before the step's tick: the register or the timer gets the value, and nothing else changes
(R203 to R205). -/
def Obligations.TimerMovesCopyTheValue : Prop :=
  ∀ (x : Nibble) (s : State),
    (∃ t, exec (.ldVxDt x) s = .next t ∧ t.pc.toNat = (s.pc.toNat + 2) % 65536 ∧ OnlyTouches [.pc, .V] s t ∧
      ∀ r, t.reg r = if r = x then s.DT else s.reg r) ∧
    (∃ t, exec (.ldDtVx x) s = .next t ∧ t.pc.toNat = (s.pc.toNat + 2) % 65536 ∧ OnlyTouches [.pc, .DT] s t ∧
      t.DT = s.reg x) ∧
    (∃ t, exec (.ldStVx x) s = .next t ∧ t.pc.toNat = (s.pc.toNat + 2) % 65536 ∧ OnlyTouches [.pc, .ST] s t ∧
      t.ST = s.reg x)

/-- `ExA1` skips when the key is released and faults on a number that names no key (R200, R201). -/
def Obligations.KeySkipTestsTheKeyOrFaults : Prop :=
  ∀ (x : Nibble) (s : State), (encode (.sknp x)).toNat = 0xE000 + x.toNat * 256 + 0xA1 ∧
    (∀ k : Fin 16, (s.reg x).toNat = k.val → ∃ t, exec (.sknp x) s = .next t ∧ OnlyTouches [.pc] s t ∧
      t.pc.toNat = (s.pc.toNat + if s.key[k] = false then 4 else 2) % 65536) ∧
    ((s.reg x).toNat > 15 → exec (.sknp x) s = .fault (.keyIndexOutOfRange (s.reg x)))

/-- `Ex9E` skips when the key is pressed and faults on a number that names no key (R232, general knowledge in the spec). -/
def Obligations.KeyPressedSkipTestsTheKeyOrFaults : Prop :=
  ∀ (x : Nibble) (s : State),
    (∀ k : Fin 16, (s.reg x).toNat = k.val → ∃ t, exec (.skp x) s = .next t ∧ OnlyTouches [.pc] s t ∧
      t.pc.toNat = (s.pc.toNat + if s.key[k] = true then 4 else 2) % 65536) ∧
    ((s.reg x).toNat > 15 → exec (.skp x) s = .fault (.keyIndexOutOfRange (s.reg x)))

/-- `Fx0A`: with a key pressed the least one is stored; with none the state stays and the instruction runs again; with
`WAIT_FOR_RELEASE` the spec gives no meaning and the model refuses (R233, general knowledge in the spec). -/
def Obligations.WaitForKeyTakesTheLeastPressedKey : Prop :=
  ∀ (x : Nibble) (s : State),
    (s.quirks.waitForRelease = false →
      (∀ k : Fin 16, s.key[k] = true → (∀ j : Fin 16, j < k → s.key[j] = false) →
        ∃ t, exec (.ldVxK x) s = .next t ∧ t.pc.toNat = (s.pc.toNat + 2) % 65536 ∧ OnlyTouches [.pc, .V] s t ∧
          ∀ r, (t.reg r).toNat = if r = x then k.val else (s.reg r).toNat) ∧
      ((∀ k : Fin 16, s.key[k] = false) → exec (.ldVxK x) s = .next s)) ∧
    (s.quirks.waitForRelease = true → exec (.ldVxK x) s = .refused .waitForReleaseNotGiven)

/-! ### The whole machine -/

/-- An instruction changes at most the parts of the state listed for it in `writtenParts`, and at most the registers listed in
`mayChangeReg` (R23, R24 and the instruction rules). The lists are upper bounds: `I` stands there for `Fx65` and `VF` for
`8xy1` and `8xy3`, which change them only under a FULL sub-parameter (RegisterLoadReadsUpFromTheIndex,
OrAndXorClearVfOnlyUnderLogicResetsVf), and which bytes a store leaves is said by DecimalStoreWritesThreeDigits,
RegisterStoreWritesUpFromTheIndex and OnlyTheTwoStoresWriteMemory. The frames of the 13 FULL instructions are general
knowledge in the spec (R223 to R235; notes/assumptions/12.md); that `draws` is a part is the model's choice
(notes/assumptions/4.md). -/
def Obligations.EveryInstructionKeepsItsFrame : Prop :=
  ∀ (i : Instr) (s t : State), exec i s = .next t →
    OnlyTouches (writtenParts i) s t ∧ ∀ r, mayChangeReg i r = false → t.reg r = s.reg r

/-- A byte of memory changes only by `Fx33` at `I` to `I + 2` (R163, R165), or by `Fx55` at `I` to `I + x`. `Fx55` decodes only
under FULL, and what it stores is general knowledge in the spec (R235; notes/assumptions/12.md). -/
def Obligations.OnlyTheTwoStoresWriteMemory : Prop :=
  ∀ (i : Instr) (s t : State) (a : Nat), exec i s = .next t → t.byteAt a ≠ s.byteAt a →
    (∃ x, i = .ldB x ∧ s.I.toNat ≤ a ∧ a ≤ s.I.toNat + 2) ∨
    (∃ x, i = .ldIVx x ∧ s.I.toNat ≤ a ∧ a ≤ s.I.toNat + x.toNat)

/-- In the reference profile `VF` changes only by `8xy4`, `8xy5` and `Dxyn`, or as the destination (R24). -/
def Obligations.VfIsWrittenOnlyAsFlagOrDestination : Prop :=
  ∀ (i : Instr) (s t : State), i.fullOnly = false → exec i s = .next t → t.reg 0xF ≠ s.reg 0xF →
    (∃ x y, i = .addReg x y) ∨ (∃ x y, i = .subReg x y) ∨ (∃ x y n, i = .drw x y n) ∨
    (∃ nn, i = .ldImm 0xF nn) ∨ (∃ nn, i = .addImm 0xF nn) ∨ (∃ y, i = .ldReg 0xF y) ∨ (∃ y, i = .andReg 0xF y) ∨
    (∃ nn, i = .rnd 0xF nn) ∨ i = .ldVxDt 0xF ∨ i = .ldVxI 0xF

/-- An instruction raises only its own faults (R180, R261, R265); those of `Ex9E` and `Fx55` are general knowledge in the
spec (R232, R235; notes/assumptions/12.md). -/
def Obligations.EveryInstructionRaisesOnlyItsOwnFaults : Prop :=
  ∀ (i : Instr) (s : State) (f : Fault), exec i s = .fault f →
    (i = .ret ∧ f = .stackUnderflow s.pc) ∨
    ((∃ nnn, i = .call nnn) ∧ f = .stackOverflow s.pc) ∨
    ((∃ x, (i = .sknp x ∨ i = .skp x) ∧ f = .keyIndexOutOfRange (s.reg x))) ∨
    ((∃ x, i = .ldB x ∨ i = .ldIVx x) ∧ f = .addressOutOfBounds (max s.I.toNat memSize) .write) ∨
    ((∃ x, i = .ldVxI x) ∧ f = .addressOutOfBounds (max s.I.toNat memSize) .read) ∨
    ((∃ x y n, i = .drw x y n) ∧ f = .addressOutOfBounds (max s.I.toNat memSize) .read) ∨
    ((∃ x y n, i = .drw x y n) ∧ s.config.drawEdge = .flat ∧ ∃ k, k ≥ 2048 ∧ f = .framebufferIndexOutOfRange k)

/-- A step is refused only when the word at `pc` decodes to `Fx0A`, on a FULL machine with `WAIT_FOR_RELEASE`, whose state
machine the spec does not give (R233; notes/assumptions/7.md). -/
def Obligations.StepRefusesOnlyTheReleaseVariantOfWaitForKey : Prop :=
  ∀ (s : State) (r : Refusal), step s = .refused r →
    r = .waitForReleaseNotGiven ∧
    (∃ w x, s.fetch = .ok w ∧ decode s.config.profile w = .ok (.ldVxK x)) ∧
    ∃ q : Quirks, s.config.profile = .full q ∧ q.waitForRelease = true

/-- No step changes the keys or a running status (R32, R40). Nor does one change the parameters: that they stand in the
state is the model's choice, notes/assumptions/1.md. -/
def Obligations.StepsLeaveKeysStatusAndParametersAlone : Prop :=
  ∀ s t : State, step s = .next t →
    t.key = s.key ∧ t.config = s.config ∧ s.status = .running ∧ t.status = .running

/-- Every step keeps the invariant: memory in canonical form, live stack entries and `pc` in the reachable range, and in the
reference profile `I` inside the memory (R25, R106, R123). The canonical form is the model's choice (notes/assumptions/8.md), and
the bound of `pc` under FULL follows from R231, general knowledge in the spec (notes/assumptions/12.md). -/
def Obligations.EveryStepKeepsTheInvariant : Prop :=
  ∀ s t : State, s.Inv → step s = .next t → t.Inv

/-- The reset state meets the invariant. Its clause on memory is the canonical form, the model's choice
(notes/assumptions/8.md). -/
def Obligations.ResetMeetsTheInvariant : Prop := State.reset.Inv

/-- Every session of the driver keeps the invariant: resets, loads, steps that succeed or fault, key changes and views, in
any order (R52, R71, R289). The canonical form of memory in it is the model's choice (notes/assumptions/8.md), and its bound of
`pc` under FULL follows from R231, general knowledge in the spec (notes/assumptions/12.md). -/
def Obligations.EveryDriverSessionKeepsTheInvariant : Prop :=
  ∀ (ops : List DriverOp) (s : State), s.Inv → (runDriver ops s).Inv

/-! ### Reset, loading and the host -/

/-- `reset()` sets every element to its reset value from any state, and the state after power-on is one it leaves
(R300, R301). -/
def Obligations.ResetSetsEveryElement : Prop :=
  (∀ s t : State, t = driverReset s →
    (∀ (d : Fin 16) (r : Fin 5), t.byteAt (5 * d.val + r.val) = s.config.font[d][r]) ∧
    (∀ a, 0x50 ≤ a → t.byteAt a = 0) ∧ (∀ r, t.reg r = 0) ∧ t.I.toNat = 0 ∧ t.pc.toNat = 0x200 ∧ t.sp.val = 0 ∧
    (∀ k : Fin 16, t.stack[k].toNat = 0) ∧ t.DT.toNat = 0 ∧ t.ST.toNat = 0 ∧ (∀ k, t.fb.get k = false) ∧
    (∀ k : Fin 16, t.key[k] = false) ∧ t.needsRedraw = false ∧ t.status = .running) ∧
  driverReset State.reset = State.reset

/-- `loadProgram`: an image that fits is copied to `origin` up and nothing else changes, not even the fault status; one that
does not fit is rejected with no effect (R302, R303). -/
def Obligations.LoadCopiesTheImageOrRejectsIt : Prop :=
  ∀ (bytes : List Byte) (origin : Nat) (s : State),
    (origin + bytes.length ≤ memSize → ∃ t, driverLoad bytes origin s = (t, .ok) ∧ OnlyTouches [.memory] s t ∧
      (∀ (k : Nat) (h : k < bytes.length), t.byteAt (origin + k) = bytes[k]) ∧
      (∀ a, a < origin ∨ origin + bytes.length ≤ a → t.byteAt a = s.byteAt a)) ∧
    (origin + bytes.length > memSize → driverLoad bytes origin s = (s, .programTooLarge))

/-- The views change nothing, `takeRedrawFlag` answers the flag and clears it, so a second call answers 0, and `setKey`
changes one key (R48 to R51). -/
def Obligations.HostViewsAndKeyWritesDoOnlyTheirPart : Prop :=
  ∀ (s : State) (k : Fin 16) (pressed : Bool),
    DriverOp.perform .readFramebuffer s = (s, .framebuffer s.fb) ∧
    DriverOp.perform .readSoundTimer s = (s, .soundTimer s.ST) ∧
    (∃ t, DriverOp.perform .takeRedrawFlag s = (t, .redrawFlag s.needsRedraw) ∧ OnlyTouches [.needsRedraw] s t ∧
      (DriverOp.perform .takeRedrawFlag t).2 = .redrawFlag false) ∧
    (∃ t, DriverOp.perform (.setKey k pressed) s = (t, .ok) ∧ OnlyTouches [.key] s t ∧
      ∀ j : Fin 16, t.key[j] = if j = k then pressed else s.key[j])
end

