-- ==== Sys2Proof/Laws/Decode.lean ====
section
/-! SUPPORT. The bits of the instruction formats: every field of an assembled word reads back, and a word is assembled from
its fields (spec/30_encoding.md R81, R82). -/

namespace Sys2Proof

theorem getLsbD_formXYN (f x y n : Nibble) (i : Nat) : (formXYN f x y n).getLsbD i =
    if i < 4 then n.getLsbD i else if i < 8 then y.getLsbD (i - 4) else if i < 12 then x.getLsbD (i - 8)
    else f.getLsbD (i - 12) := by
  simp only [formXYN, BitVec.getLsbD_append]
  by_cases h1 : i < 4
  · simp [h1, show i < 8 by omega]
  by_cases h2 : i < 8
  · simp [h1, h2]
  by_cases h3 : i < 12
  · simp [h1, h2, h3, show i - 8 < 4 by omega]
  · simp [h1, h2, h3, show ¬ i - 8 < 4 by omega, show i - 8 - 4 = i - 12 by omega]

theorem getLsbD_formXNN (f x : Nibble) (nn : Byte) (i : Nat) : (formXNN f x nn).getLsbD i =
    if i < 8 then nn.getLsbD i else if i < 12 then x.getLsbD (i - 8) else f.getLsbD (i - 12) := by
  simp only [formXNN, BitVec.getLsbD_append]
  by_cases h2 : i < 8
  · simp [h2]
  by_cases h3 : i < 12
  · simp [h2, h3, show i - 8 < 4 by omega]
  · simp [h2, h3, show ¬ i - 8 < 4 by omega, show i - 8 - 4 = i - 12 by omega]

theorem getLsbD_formNNN (f : Nibble) (nnn : Address) (i : Nat) : (formNNN f nnn).getLsbD i =
    if i < 12 then nnn.getLsbD i else f.getLsbD (i - 12) := by
  simp only [formNNN, BitVec.getLsbD_append]

/-! ### The number of an assembled word -/

theorem formNNN_toNat (f : Nibble) (nnn : Address) : (formNNN f nnn).toNat = f.toNat * 4096 + nnn.toNat := by
  rw [formNNN, BitVec.toNat_append, ← Nat.shiftLeft_add_eq_or_of_lt nnn.isLt, Nat.shiftLeft_eq]

theorem formXNN_toNat (f x : Nibble) (nn : Byte) :
    (formXNN f x nn).toNat = f.toNat * 4096 + x.toNat * 256 + nn.toNat := by
  rw [formXNN, BitVec.toNat_append, ← Nat.shiftLeft_add_eq_or_of_lt nn.isLt, Nat.shiftLeft_eq, BitVec.toNat_append,
    ← Nat.shiftLeft_add_eq_or_of_lt x.isLt, Nat.shiftLeft_eq]
  omega

theorem formXYN_toNat (f x y n : Nibble) :
    (formXYN f x y n).toNat = f.toNat * 4096 + x.toNat * 256 + y.toNat * 16 + n.toNat := by
  have e := formXNN_toNat f x (y ++ n : Byte)
  rw [BitVec.toNat_append, ← Nat.shiftLeft_add_eq_or_of_lt n.isLt, Nat.shiftLeft_eq] at e
  rw [formXYN, ← formXNN, e]
  omega

/-! ### Fields of an assembled word -/

section
variable (f x y n : Nibble) (nn : Byte) (nnn : Address)

@[simp] theorem fieldF_formXYN : fieldF (formXYN f x y n) = f := by
  apply BitVec.eq_of_getLsbD_eq; intro i hi
  simp [fieldF, getLsbD_formXYN, hi, show ¬ 12 + i < 4 by omega, show ¬ 12 + i < 8 by omega]

@[simp] theorem fieldX_formXYN : fieldX (formXYN f x y n) = x := by
  apply BitVec.eq_of_getLsbD_eq; intro i hi
  simp [fieldX, getLsbD_formXYN, hi, show ¬ 8 + i < 4 by omega, show 8 + i < 12 by omega]

@[simp] theorem fieldY_formXYN : fieldY (formXYN f x y n) = y := by
  apply BitVec.eq_of_getLsbD_eq; intro i hi
  simp [fieldY, getLsbD_formXYN, hi, show 4 + i < 8 by omega]

@[simp] theorem fieldN_formXYN : fieldN (formXYN f x y n) = n := by
  apply BitVec.eq_of_getLsbD_eq; intro i hi
  simp [fieldN, getLsbD_formXYN, hi]

@[simp] theorem fieldF_formXNN : fieldF (formXNN f x nn) = f := by
  apply BitVec.eq_of_getLsbD_eq; intro i hi
  simp [fieldF, getLsbD_formXNN, hi, show ¬ 12 + i < 8 by omega]

@[simp] theorem fieldX_formXNN : fieldX (formXNN f x nn) = x := by
  apply BitVec.eq_of_getLsbD_eq; intro i hi
  simp [fieldX, getLsbD_formXNN, hi, show 8 + i < 12 by omega]

@[simp] theorem fieldNN_formXNN : fieldNN (formXNN f x nn) = nn := by
  apply BitVec.eq_of_getLsbD_eq; intro i hi
  simp [fieldNN, getLsbD_formXNN, hi]

@[simp] theorem fieldF_formNNN : fieldF (formNNN f nnn) = f := by
  apply BitVec.eq_of_getLsbD_eq; intro i hi
  simp [fieldF, getLsbD_formNNN, hi]

@[simp] theorem fieldNNN_formNNN : fieldNNN (formNNN f nnn) = nnn := by
  apply BitVec.eq_of_getLsbD_eq; intro i hi
  simp [fieldNNN, getLsbD_formNNN, hi]

end

/-! ### A word from its fields -/

theorem formXYN_fields (w : Word) : formXYN (fieldF w) (fieldX w) (fieldY w) (fieldN w) = w := by
  apply BitVec.eq_of_getLsbD_eq; intro i hi
  rw [getLsbD_formXYN]
  simp only [fieldF, fieldX, fieldY, fieldN, BitVec.getLsbD_extractLsb']
  split
  · simp_all
  · split
    · simp [show i - 4 < 4 by omega, show 4 + (i - 4) = i by omega]
    · split
      · simp [show i - 8 < 4 by omega, show 8 + (i - 8) = i by omega]
      · simp [show i - 12 < 4 by omega, show 12 + (i - 12) = i by omega]

theorem formXNN_fields (w : Word) : formXNN (fieldF w) (fieldX w) (fieldNN w) = w := by
  apply BitVec.eq_of_getLsbD_eq; intro i hi
  rw [getLsbD_formXNN]
  simp only [fieldF, fieldX, fieldNN, BitVec.getLsbD_extractLsb']
  split
  · simp_all
  · split
    · simp [show i - 8 < 4 by omega, show 8 + (i - 8) = i by omega]
    · simp [show i - 12 < 4 by omega, show 12 + (i - 12) = i by omega]

theorem formNNN_fields (w : Word) : formNNN (fieldF w) (fieldNNN w) = w := by
  apply BitVec.eq_of_getLsbD_eq; intro i hi
  rw [getLsbD_formNNN]
  simp only [fieldF, fieldNNN, BitVec.getLsbD_extractLsb']
  split
  · simp_all
  · simp [show i - 12 < 4 by omega, show 12 + (i - 12) = i by omega]

/-! ### The masks of the opcode table, in terms of fields -/

theorem and_F000 (w : Word) : w &&& 0xF000#16 = formNNN (fieldF w) 0 := by
  apply BitVec.eq_of_getLsbD_eq; intro i hi
  rw [getLsbD_formNNN, BitVec.getLsbD_and]
  simp only [fieldF, BitVec.getLsbD_extractLsb']
  interval_cases i <;> simp

theorem and_F00F (w : Word) : w &&& 0xF00F#16 = formXYN (fieldF w) 0 0 (fieldN w) := by
  apply BitVec.eq_of_getLsbD_eq; intro i hi
  rw [getLsbD_formXYN, BitVec.getLsbD_and]
  simp only [fieldF, fieldN, BitVec.getLsbD_extractLsb']
  interval_cases i <;> simp

theorem and_F0FF (w : Word) : w &&& 0xF0FF#16 = formXNN (fieldF w) 0 (fieldNN w) := by
  apply BitVec.eq_of_getLsbD_eq; intro i hi
  rw [getLsbD_formXNN, BitVec.getLsbD_and]
  simp only [fieldF, fieldNN, BitVec.getLsbD_extractLsb']
  interval_cases i <;> simp

theorem and_FFFF (w : Word) : w &&& 0xFFFF#16 = w := by
  apply BitVec.eq_of_getLsbD_eq; intro i hi
  rw [BitVec.getLsbD_and]
  interval_cases i <;> simp

/-- A word that does not decode is rejected with the word itself (spec/30_encoding.md R88). -/
theorem decode_error {p : Profile} {w : Word} {e : DecodeError} (h : decode p w = .error e) : e = .unknownOpcode w := by
  unfold decode at h
  split at h
  · cases h
  · injection h with h
    exact h.symm
  · split at h
    · cases h
    · injection h with h
      exact h.symm

end Sys2Proof
end

