-- ==== Sys2Proof/Laws/State.lean ====
section
/-! SUPPORT. One lemma per field per update of the state, so that no proof unfolds a record update. -/

namespace Sys2Proof.Machine

variable (s : State)

@[simp] theorem State.setByte_memory (a : Nat) (v : Byte) : (s.setByte a v).memory = Memory.set s.config.font s.memory a v := rfl
@[simp] theorem State.setByte_V (a : Nat) (v : Byte) : (s.setByte a v).V = s.V := rfl
@[simp] theorem State.setByte_I (a : Nat) (v : Byte) : (s.setByte a v).I = s.I := rfl
@[simp] theorem State.setByte_pc (a : Nat) (v : Byte) : (s.setByte a v).pc = s.pc := rfl
@[simp] theorem State.setByte_stack (a : Nat) (v : Byte) : (s.setByte a v).stack = s.stack := rfl
@[simp] theorem State.setByte_sp (a : Nat) (v : Byte) : (s.setByte a v).sp = s.sp := rfl
@[simp] theorem State.setByte_DT (a : Nat) (v : Byte) : (s.setByte a v).DT = s.DT := rfl
@[simp] theorem State.setByte_ST (a : Nat) (v : Byte) : (s.setByte a v).ST = s.ST := rfl
@[simp] theorem State.setByte_fb (a : Nat) (v : Byte) : (s.setByte a v).fb = s.fb := rfl
@[simp] theorem State.setByte_key (a : Nat) (v : Byte) : (s.setByte a v).key = s.key := rfl
@[simp] theorem State.setByte_needsRedraw (a : Nat) (v : Byte) : (s.setByte a v).needsRedraw = s.needsRedraw := rfl
@[simp] theorem State.setByte_status (a : Nat) (v : Byte) : (s.setByte a v).status = s.status := rfl
@[simp] theorem State.setByte_config (a : Nat) (v : Byte) : (s.setByte a v).config = s.config := rfl
@[simp] theorem State.setByte_draws (a : Nat) (v : Byte) : (s.setByte a v).draws = s.draws := rfl

@[simp] theorem State.setI_memory (v : Word) : (s.setI v).memory = s.memory := rfl
@[simp] theorem State.setI_V (v : Word) : (s.setI v).V = s.V := rfl
@[simp] theorem State.setI_I (v : Word) : (s.setI v).I = v := rfl
@[simp] theorem State.setI_pc (v : Word) : (s.setI v).pc = s.pc := rfl
@[simp] theorem State.setI_stack (v : Word) : (s.setI v).stack = s.stack := rfl
@[simp] theorem State.setI_sp (v : Word) : (s.setI v).sp = s.sp := rfl
@[simp] theorem State.setI_DT (v : Word) : (s.setI v).DT = s.DT := rfl
@[simp] theorem State.setI_ST (v : Word) : (s.setI v).ST = s.ST := rfl
@[simp] theorem State.setI_fb (v : Word) : (s.setI v).fb = s.fb := rfl
@[simp] theorem State.setI_key (v : Word) : (s.setI v).key = s.key := rfl
@[simp] theorem State.setI_needsRedraw (v : Word) : (s.setI v).needsRedraw = s.needsRedraw := rfl
@[simp] theorem State.setI_status (v : Word) : (s.setI v).status = s.status := rfl
@[simp] theorem State.setI_config (v : Word) : (s.setI v).config = s.config := rfl
@[simp] theorem State.setI_draws (v : Word) : (s.setI v).draws = s.draws := rfl

@[simp] theorem State.setReg_memory (x : Nibble) (v : Byte) : (s.setReg x v).memory = s.memory := rfl
@[simp] theorem State.setReg_V (x : Nibble) (v : Byte) : (s.setReg x v).V = s.V.set x.toNat v x.isLt := rfl
@[simp] theorem State.setReg_I (x : Nibble) (v : Byte) : (s.setReg x v).I = s.I := rfl
@[simp] theorem State.setReg_pc (x : Nibble) (v : Byte) : (s.setReg x v).pc = s.pc := rfl
@[simp] theorem State.setReg_stack (x : Nibble) (v : Byte) : (s.setReg x v).stack = s.stack := rfl
@[simp] theorem State.setReg_sp (x : Nibble) (v : Byte) : (s.setReg x v).sp = s.sp := rfl
@[simp] theorem State.setReg_DT (x : Nibble) (v : Byte) : (s.setReg x v).DT = s.DT := rfl
@[simp] theorem State.setReg_ST (x : Nibble) (v : Byte) : (s.setReg x v).ST = s.ST := rfl
@[simp] theorem State.setReg_fb (x : Nibble) (v : Byte) : (s.setReg x v).fb = s.fb := rfl
@[simp] theorem State.setReg_key (x : Nibble) (v : Byte) : (s.setReg x v).key = s.key := rfl
@[simp] theorem State.setReg_needsRedraw (x : Nibble) (v : Byte) : (s.setReg x v).needsRedraw = s.needsRedraw := rfl
@[simp] theorem State.setReg_status (x : Nibble) (v : Byte) : (s.setReg x v).status = s.status := rfl
@[simp] theorem State.setReg_config (x : Nibble) (v : Byte) : (s.setReg x v).config = s.config := rfl
@[simp] theorem State.setReg_draws (x : Nibble) (v : Byte) : (s.setReg x v).draws = s.draws := rfl

@[simp] theorem State.setFlag_memory (v : Byte) : (s.setFlag v).memory = s.memory := rfl
@[simp] theorem State.setFlag_V (v : Byte) : (s.setFlag v).V = s.V.set vf.toNat v vf.isLt := rfl
@[simp] theorem State.setFlag_I (v : Byte) : (s.setFlag v).I = s.I := rfl
@[simp] theorem State.setFlag_pc (v : Byte) : (s.setFlag v).pc = s.pc := rfl
@[simp] theorem State.setFlag_stack (v : Byte) : (s.setFlag v).stack = s.stack := rfl
@[simp] theorem State.setFlag_sp (v : Byte) : (s.setFlag v).sp = s.sp := rfl
@[simp] theorem State.setFlag_DT (v : Byte) : (s.setFlag v).DT = s.DT := rfl
@[simp] theorem State.setFlag_ST (v : Byte) : (s.setFlag v).ST = s.ST := rfl
@[simp] theorem State.setFlag_fb (v : Byte) : (s.setFlag v).fb = s.fb := rfl
@[simp] theorem State.setFlag_key (v : Byte) : (s.setFlag v).key = s.key := rfl
@[simp] theorem State.setFlag_needsRedraw (v : Byte) : (s.setFlag v).needsRedraw = s.needsRedraw := rfl
@[simp] theorem State.setFlag_status (v : Byte) : (s.setFlag v).status = s.status := rfl
@[simp] theorem State.setFlag_config (v : Byte) : (s.setFlag v).config = s.config := rfl
@[simp] theorem State.setFlag_draws (v : Byte) : (s.setFlag v).draws = s.draws := rfl

@[simp] theorem State.advance_memory : (s.advance).memory = s.memory := rfl
@[simp] theorem State.advance_V : (s.advance).V = s.V := rfl
@[simp] theorem State.advance_I : (s.advance).I = s.I := rfl
@[simp] theorem State.advance_pc : (s.advance).pc = s.pc + 2 := rfl
@[simp] theorem State.advance_stack : (s.advance).stack = s.stack := rfl
@[simp] theorem State.advance_sp : (s.advance).sp = s.sp := rfl
@[simp] theorem State.advance_DT : (s.advance).DT = s.DT := rfl
@[simp] theorem State.advance_ST : (s.advance).ST = s.ST := rfl
@[simp] theorem State.advance_fb : (s.advance).fb = s.fb := rfl
@[simp] theorem State.advance_key : (s.advance).key = s.key := rfl
@[simp] theorem State.advance_needsRedraw : (s.advance).needsRedraw = s.needsRedraw := rfl
@[simp] theorem State.advance_status : (s.advance).status = s.status := rfl
@[simp] theorem State.advance_config : (s.advance).config = s.config := rfl
@[simp] theorem State.advance_draws : (s.advance).draws = s.draws := rfl

@[simp] theorem State.skipIf_memory (c : Bool) : (s.skipIf c).memory = s.memory := rfl
@[simp] theorem State.skipIf_V (c : Bool) : (s.skipIf c).V = s.V := rfl
@[simp] theorem State.skipIf_I (c : Bool) : (s.skipIf c).I = s.I := rfl
@[simp] theorem State.skipIf_pc (c : Bool) : (s.skipIf c).pc = if c then s.pc + 4 else s.pc + 2 := rfl
@[simp] theorem State.skipIf_stack (c : Bool) : (s.skipIf c).stack = s.stack := rfl
@[simp] theorem State.skipIf_sp (c : Bool) : (s.skipIf c).sp = s.sp := rfl
@[simp] theorem State.skipIf_DT (c : Bool) : (s.skipIf c).DT = s.DT := rfl
@[simp] theorem State.skipIf_ST (c : Bool) : (s.skipIf c).ST = s.ST := rfl
@[simp] theorem State.skipIf_fb (c : Bool) : (s.skipIf c).fb = s.fb := rfl
@[simp] theorem State.skipIf_key (c : Bool) : (s.skipIf c).key = s.key := rfl
@[simp] theorem State.skipIf_needsRedraw (c : Bool) : (s.skipIf c).needsRedraw = s.needsRedraw := rfl
@[simp] theorem State.skipIf_status (c : Bool) : (s.skipIf c).status = s.status := rfl
@[simp] theorem State.skipIf_config (c : Bool) : (s.skipIf c).config = s.config := rfl
@[simp] theorem State.skipIf_draws (c : Bool) : (s.skipIf c).draws = s.draws := rfl

@[simp] theorem State.jumpTo_memory (a : Word) : (s.jumpTo a).memory = s.memory := rfl
@[simp] theorem State.jumpTo_V (a : Word) : (s.jumpTo a).V = s.V := rfl
@[simp] theorem State.jumpTo_I (a : Word) : (s.jumpTo a).I = s.I := rfl
@[simp] theorem State.jumpTo_pc (a : Word) : (s.jumpTo a).pc = a := rfl
@[simp] theorem State.jumpTo_stack (a : Word) : (s.jumpTo a).stack = s.stack := rfl
@[simp] theorem State.jumpTo_sp (a : Word) : (s.jumpTo a).sp = s.sp := rfl
@[simp] theorem State.jumpTo_DT (a : Word) : (s.jumpTo a).DT = s.DT := rfl
@[simp] theorem State.jumpTo_ST (a : Word) : (s.jumpTo a).ST = s.ST := rfl
@[simp] theorem State.jumpTo_fb (a : Word) : (s.jumpTo a).fb = s.fb := rfl
@[simp] theorem State.jumpTo_key (a : Word) : (s.jumpTo a).key = s.key := rfl
@[simp] theorem State.jumpTo_needsRedraw (a : Word) : (s.jumpTo a).needsRedraw = s.needsRedraw := rfl
@[simp] theorem State.jumpTo_status (a : Word) : (s.jumpTo a).status = s.status := rfl
@[simp] theorem State.jumpTo_config (a : Word) : (s.jumpTo a).config = s.config := rfl
@[simp] theorem State.jumpTo_draws (a : Word) : (s.jumpTo a).draws = s.draws := rfl

@[simp] theorem State.tickTimers_memory : (s.tickTimers).memory = s.memory := rfl
@[simp] theorem State.tickTimers_V : (s.tickTimers).V = s.V := rfl
@[simp] theorem State.tickTimers_I : (s.tickTimers).I = s.I := rfl
@[simp] theorem State.tickTimers_pc : (s.tickTimers).pc = s.pc := rfl
@[simp] theorem State.tickTimers_stack : (s.tickTimers).stack = s.stack := rfl
@[simp] theorem State.tickTimers_sp : (s.tickTimers).sp = s.sp := rfl
@[simp] theorem State.tickTimers_DT : (s.tickTimers).DT = tick s.DT := rfl
@[simp] theorem State.tickTimers_ST : (s.tickTimers).ST = tick s.ST := rfl
@[simp] theorem State.tickTimers_fb : (s.tickTimers).fb = s.fb := rfl
@[simp] theorem State.tickTimers_key : (s.tickTimers).key = s.key := rfl
@[simp] theorem State.tickTimers_needsRedraw : (s.tickTimers).needsRedraw = s.needsRedraw := rfl
@[simp] theorem State.tickTimers_status : (s.tickTimers).status = s.status := rfl
@[simp] theorem State.tickTimers_config : (s.tickTimers).config = s.config := rfl
@[simp] theorem State.tickTimers_draws : (s.tickTimers).draws = s.draws := rfl

@[simp] theorem State.enterFaulted_memory (f : Fault) : (s.enterFaulted f).memory = s.memory := rfl
@[simp] theorem State.enterFaulted_V (f : Fault) : (s.enterFaulted f).V = s.V := rfl
@[simp] theorem State.enterFaulted_I (f : Fault) : (s.enterFaulted f).I = s.I := rfl
@[simp] theorem State.enterFaulted_pc (f : Fault) : (s.enterFaulted f).pc = s.pc := rfl
@[simp] theorem State.enterFaulted_stack (f : Fault) : (s.enterFaulted f).stack = s.stack := rfl
@[simp] theorem State.enterFaulted_sp (f : Fault) : (s.enterFaulted f).sp = s.sp := rfl
@[simp] theorem State.enterFaulted_DT (f : Fault) : (s.enterFaulted f).DT = s.DT := rfl
@[simp] theorem State.enterFaulted_ST (f : Fault) : (s.enterFaulted f).ST = s.ST := rfl
@[simp] theorem State.enterFaulted_fb (f : Fault) : (s.enterFaulted f).fb = s.fb := rfl
@[simp] theorem State.enterFaulted_key (f : Fault) : (s.enterFaulted f).key = s.key := rfl
@[simp] theorem State.enterFaulted_needsRedraw (f : Fault) : (s.enterFaulted f).needsRedraw = s.needsRedraw := rfl
@[simp] theorem State.enterFaulted_status (f : Fault) : (s.enterFaulted f).status = .faulted f := rfl
@[simp] theorem State.enterFaulted_config (f : Fault) : (s.enterFaulted f).config = s.config := rfl
@[simp] theorem State.enterFaulted_draws (f : Fault) : (s.enterFaulted f).draws = s.draws := rfl

/-! ### Derived reads: registers, bytes and parameters after an update -/

theorem State.reg_setReg (x r : Nibble) (v : Byte) : (s.setReg x v).reg r = if r = x then v else s.reg r := by
  unfold State.reg State.setReg
  by_cases h : r = x
  · subst h; simp
  · have h' : x.toNat ≠ r.toNat := fun e => h (BitVec.eq_of_toNat_eq e.symm)
    simp [h, h']

theorem State.reg_setFlag (r : Nibble) (v : Byte) : (s.setFlag v).reg r = if r = vf then v else s.reg r :=
  s.reg_setReg vf r v

/-- A register depends on `V` alone. -/
theorem State.reg_congr {s t : State} (h : t.V = s.V) (r : Nibble) : t.reg r = s.reg r := by
  simp [State.reg, h]

/-- A byte of memory depends on the memory and the font alone. -/
theorem State.byteAt_congr {s t : State} (hm : t.memory = s.memory) (hc : t.config = s.config) (a : Nat) :
    t.byteAt a = s.byteAt a := by
  simp [State.byteAt, hm, hc]

/-- The sub-parameters depend on the parameters alone. -/
theorem State.quirks_congr {s t : State} (h : t.config = s.config) : t.quirks = s.quirks := by
  simp [State.quirks, h]

@[simp] theorem State.reg_setI (v : Word) (r : Nibble) : (s.setI v).reg r = s.reg r := rfl
@[simp] theorem State.reg_setByte (a : Nat) (v : Byte) (r : Nibble) : (s.setByte a v).reg r = s.reg r := rfl
@[simp] theorem State.reg_advance (r : Nibble) : s.advance.reg r = s.reg r := rfl
@[simp] theorem State.reg_skipIf (c : Bool) (r : Nibble) : (s.skipIf c).reg r = s.reg r := rfl
@[simp] theorem State.reg_jumpTo (a : Word) (r : Nibble) : (s.jumpTo a).reg r = s.reg r := rfl
@[simp] theorem State.reg_tickTimers (r : Nibble) : s.tickTimers.reg r = s.reg r := rfl
@[simp] theorem State.byteAt_setI (v : Word) (a : Nat) : (s.setI v).byteAt a = s.byteAt a := rfl
@[simp] theorem State.byteAt_setReg (x : Nibble) (v : Byte) (a : Nat) : (s.setReg x v).byteAt a = s.byteAt a := rfl
@[simp] theorem State.byteAt_setFlag (v : Byte) (a : Nat) : (s.setFlag v).byteAt a = s.byteAt a := rfl
@[simp] theorem State.byteAt_advance (a : Nat) : s.advance.byteAt a = s.byteAt a := rfl
@[simp] theorem State.byteAt_skipIf (c : Bool) (a : Nat) : (s.skipIf c).byteAt a = s.byteAt a := rfl
@[simp] theorem State.byteAt_jumpTo (p : Word) (a : Nat) : (s.jumpTo p).byteAt a = s.byteAt a := rfl
@[simp] theorem State.byteAt_tickTimers (a : Nat) : s.tickTimers.byteAt a = s.byteAt a := rfl

/-- The four 16-bit forms of the program counter, as numbers (spec/40_step_cycle.md R104). -/
theorem State.advance_pc_toNat : s.advance.pc.toNat = (s.pc.toNat + 2) % 65536 := by
  simp [BitVec.toNat_add]

theorem State.skipIf_pc_toNat (c : Bool) :
    (s.skipIf c).pc.toNat = (s.pc.toNat + if c then 4 else 2) % 65536 := by
  cases c <;> simp [BitVec.toNat_add]

end Sys2Proof.Machine
end

