-- ==== Sys2Proof/Laws/Memory.lean ====
section
/-! SUPPORT. The laws of memory: read after write, the canonical form kept, equal contents are equal memories, and what
the byte-sequence operations do (spec/20_memory.md R62, R63, R71). -/

namespace Sys2Proof.Machine

variable (font : Font)

@[simp] theorem Memory.get_nil (a : Nat) : Memory.get font [] a = Memory.unlisted font a := rfl

theorem Memory.get_cons (c : Host.Cell) (m : Memory) (a : Nat) :
    Memory.get font (c :: m) a = if c.1 = a then c.2 else Memory.get font m a := rfl

theorem Memory.get_filter (m : Memory) (a b : Nat) :
    Memory.get font (m.filter (fun c => c.1 != a)) b = if b = a then Memory.unlisted font a else Memory.get font m b := by
  induction m with
  | nil => simp; intro h; rw [h]
  | cons c m ih =>
    by_cases hc : c.1 = a
    · simp only [List.filter_cons, hc, bne_self_eq_false, Bool.false_eq_true, if_false, ih, Memory.get_cons]
      by_cases hb : b = a
      · simp [hb]
      · simp [hb, Ne.symm hb]
    · simp only [List.filter_cons, bne_iff_ne, ne_eq, hc, not_false_eq_true, if_true, Memory.get_cons, ih]
      by_cases hb : b = a
      · simp [hb, hc]
      · simp [hb]

theorem Memory.get_insert (m : Memory) (a b : Nat) (v : Byte) :
    Memory.get font (Memory.insert m a v) b = if b = a then v else Memory.get font m b := by
  induction m with
  | nil => simp [Memory.insert, Memory.get_cons, eq_comm]
  | cons c m ih =>
    obtain ⟨d, u⟩ := c
    simp only [Memory.insert]
    split
    · simp only [Memory.get_cons, ih]
      by_cases hb : b = a
      · subst hb; simp; omega
      · simp [hb]
    · split
      · rename_i h; subst h
        simp only [Memory.get_cons, eq_comm]
        split <;> simp_all
      · simp only [Memory.get_cons, eq_comm (a := b)]

/-- Read after write, at the address written and at every other (R71). -/
theorem Memory.get_set (m : Memory) (a b : Nat) (v : Byte) :
    Memory.get font (Memory.set font m a v) b = if b = a then v else Memory.get font m b := by
  unfold Memory.set
  split
  · rename_i h; rw [Memory.get_filter, ← h]
  · exact Memory.get_insert font m a b v

theorem Memory.mem_insert {m : Memory} {a : Nat} {v : Byte} {c : Host.Cell} (h : c ∈ Memory.insert m a v) :
    c = (a, v) ∨ c ∈ m := by
  induction m with
  | nil => simpa [Memory.insert] using h
  | cons d m ih =>
    simp only [Memory.insert] at h
    split at h
    · rcases List.mem_cons.1 h with h | h
      · simp [h]
      · rcases ih h with h | h <;> simp [h]
    · split at h <;> rcases List.mem_cons.1 h with h | h <;> simp_all

theorem Memory.pairwise_insert {m : Memory} (hm : m.Pairwise (fun c d => c.1 < d.1)) (a : Nat) (v : Byte) :
    (Memory.insert m a v).Pairwise (fun c d => c.1 < d.1) := by
  induction m with
  | nil => simp [Memory.insert]
  | cons d m ih =>
    obtain ⟨hd, hm'⟩ := List.pairwise_cons.1 hm
    simp only [Memory.insert]
    split
    · refine List.pairwise_cons.2 ⟨fun c hc => ?_, ih hm'⟩
      rcases Memory.mem_insert hc with rfl | h
      · assumption
      · exact hd c h
    · split
      · rename_i _ h; subst h
        exact List.pairwise_cons.2 ⟨hd, hm'⟩
      · refine List.pairwise_cons.2 ⟨fun c hc => ?_, hm⟩
        show a < c.1
        rcases List.mem_cons.1 hc with h | h
        · rw [h]; omega
        · have := hd c h; omega

/-- Every store keeps the canonical form. -/
theorem Memory.wf_set {m : Memory} (hm : Memory.wf font m) {a : Nat} (ha : a < memSize) (v : Byte) :
    Memory.wf font (Memory.set font m a v) := by
  unfold Memory.set
  split
  · exact ⟨hm.1.filter _, fun c hc => hm.2 c (List.mem_filter.1 hc).1⟩
  · rename_i h
    refine ⟨Memory.pairwise_insert hm.1 a v, fun c hc => ?_⟩
    rcases Memory.mem_insert hc with rfl | h'
    · exact ⟨ha, h⟩
    · exact hm.2 c h'

/-- Below every listed address a memory reads as unlisted. -/
theorem Memory.get_of_lt {m : Memory} {a : Nat} (h : ∀ c ∈ m, a < c.1) : Memory.get font m a = Memory.unlisted font a := by
  induction m with
  | nil => rfl
  | cons c m ih =>
    have := h c (by simp)
    rw [Memory.get_cons, if_neg (by omega)]
    exact ih (fun d hd => h d (by simp [hd]))

/-- Equal contents are equal memories: the form is canonical. -/
theorem Memory.eq_of_get_eq {m n : Memory} (hm : Memory.wf font m) (hn : Memory.wf font n)
    (h : ∀ a, Memory.get font m a = Memory.get font n a) : m = n := by
  induction m generalizing n with
  | nil =>
    cases n with
    | nil => rfl
    | cons d n =>
      have := h d.1
      rw [Memory.get_cons] at this
      exact absurd (by simpa using this.symm) (hn.2 d (by simp)).2
  | cons c m ih =>
    obtain ⟨hc, hm'⟩ := List.pairwise_cons.1 hm.1
    cases n with
    | nil =>
      have := h c.1
      rw [Memory.get_cons] at this
      exact absurd (by simpa using this) (hm.2 c (by simp)).2
    | cons d n =>
      obtain ⟨hd, hn'⟩ := List.pairwise_cons.1 hn.1
      have key : c.1 = d.1 := by
        by_contra hne
        rcases Nat.lt_or_gt_of_ne hne with hlt | hlt
        · have e := h c.1
          rw [Memory.get_cons, if_pos rfl, Memory.get_of_lt font (m := d :: n)] at e
          · exact (hm.2 c (by simp)).2 e
          · intro x hx
            rcases List.mem_cons.1 hx with rfl | hx
            · exact hlt
            · exact lt_trans hlt (hd x hx)
        · have e := h d.1
          rw [Memory.get_cons (m := n), if_pos rfl, Memory.get_of_lt font (m := c :: m)] at e
          · exact (hn.2 d (by simp)).2 e.symm
          · intro x hx
            rcases List.mem_cons.1 hx with rfl | hx
            · exact hlt
            · exact lt_trans hlt (hc x hx)
      have hv : c.2 = d.2 := by
        have e := h c.1
        rwa [Memory.get_cons, if_pos rfl, Memory.get_cons, if_pos key.symm] at e
      have htail : m = n := by
        refine ih ⟨hm', fun x hx => hm.2 x (by simp [hx])⟩ ⟨hn', fun x hx => hn.2 x (by simp [hx])⟩ (fun a => ?_)
        by_cases ha : c.1 = a
        · subst ha
          rw [Memory.get_of_lt font hc, Memory.get_of_lt font (by rw [key]; exact hd)]
        · have e := h a
          rwa [Memory.get_cons, if_neg ha, Memory.get_cons, if_neg (by rw [← key]; exact ha)] at e
      rw [htail, Prod.ext key hv]

/-! ### Bytes of a state -/

variable (s : State)

theorem State.byteAt_setByte (a b : Nat) (v : Byte) : (s.setByte a v).byteAt b = if b = a then v else s.byteAt b :=
  Memory.get_set s.config.font s.memory a b v

theorem State.memRead_of_lt {a : Nat} (h : a < memSize) : s.memRead a = .ok (s.byteAt a) := by
  simp [State.memRead, Nat.not_le.2 h]

theorem State.memRead_of_ge {a : Nat} (h : memSize ≤ a) : s.memRead a = .error (.addressOutOfBounds a .read) := by
  simp [State.memRead, h]

theorem State.memWrite_of_lt {a : Nat} (h : a < memSize) (v : Byte) : s.memWrite a v = .ok (s.setByte a v) := by
  simp [State.memWrite, Nat.not_le.2 h]

theorem State.memWrite_of_ge {a : Nat} (h : memSize ≤ a) (v : Byte) :
    s.memWrite a v = .error (.addressOutOfBounds a .write) := by
  simp [State.memWrite, h]

/-- All that `readBytes` can do: the bytes in order when all are in range (or there are none), else the fault of the
lowest address out of range. -/
theorem State.readBytes_eq (a n : Nat) :
    s.readBytes a n = if n = 0 ∨ a + n ≤ memSize then .ok ((List.range' a n).map s.byteAt)
      else .error (.addressOutOfBounds (max a memSize) .read) := by
  induction n generalizing a with
  | zero => simp [State.readBytes]
  | succ n ih =>
    unfold State.readBytes
    by_cases h : a < memSize
    · rw [s.memRead_of_lt h]
      simp only [ih (a + 1)]
      by_cases h2 : a + (n + 1) ≤ memSize
      · have h3 : n = 0 ∨ a + 1 + n ≤ memSize := Or.inr (by omega)
        simp [h2, h3, List.range'_succ]
      · have h3 : ¬ (n = 0 ∨ a + 1 + n ≤ memSize) := by omega
        have h4 : max (a + 1) memSize = max a memSize := by omega
        simp only [h3, if_false, h4]
        simp [h2]
    · rw [s.memRead_of_ge (by omega)]
      have h2 : ¬ (a + (n + 1) ≤ memSize) := by omega
      have h3 : max a memSize = a := by omega
      simp [h2, h3]

@[simp] theorem State.setBytes_nil (a : Nat) : s.setBytes a [] = s := rfl

theorem State.setBytes_cons (a : Nat) (b : Byte) (bs : List Byte) :
    s.setBytes a (b :: bs) = (s.setByte a b).setBytes (a + 1) bs := rfl

/-- All that `writeBytes` can do: every byte stored when all are in range (or there are none), else the fault of the
lowest address out of range and nothing stored. -/
theorem State.writeBytes_eq (a : Nat) (bs : List Byte) :
    s.writeBytes a bs = if bs = [] ∨ a + bs.length ≤ memSize then .ok (s.setBytes a bs)
      else .error (.addressOutOfBounds (max a memSize) .write) := by
  induction bs generalizing a s with
  | nil => simp [State.writeBytes]
  | cons b bs ih =>
    unfold State.writeBytes
    by_cases h : a < memSize
    · rw [s.memWrite_of_lt h]
      simp only [ih (s.setByte a b) (a + 1)]
      by_cases h2 : a + (bs.length + 1) ≤ memSize
      · have h3 : bs = [] ∨ a + 1 + bs.length ≤ memSize := Or.inr (by omega)
        simp [h2, h3, State.setBytes_cons]
      · have h3 : ¬ (bs = [] ∨ a + 1 + bs.length ≤ memSize) := by
          rintro (rfl | h3)
          · simp at h2; omega
          · omega
        have h4 : max (a + 1) memSize = max a memSize := by omega
        simp only [h3, if_false, h4]
        simp [h2]
    · rw [s.memWrite_of_ge (by omega)]
      have h2 : ¬ (a + (bs.length + 1) ≤ memSize) := by omega
      have h3 : max a memSize = a := by omega
      simp [h2, h3]

/-- The bytes after `setBytes`: the ones stored, and every other byte as before. -/
theorem State.byteAt_setBytes (a c : Nat) (bs : List Byte) :
    (s.setBytes a bs).byteAt c = if h : a ≤ c ∧ c < a + bs.length then bs[c - a]'(by omega) else s.byteAt c := by
  induction bs generalizing a s with
  | nil =>
    have : ¬ (a ≤ c ∧ c < a) := by omega
    simp [this]
  | cons b bs ih =>
    rw [State.setBytes_cons, ih, State.byteAt_setByte]
    by_cases h1 : a + 1 ≤ c ∧ c < a + 1 + bs.length
    · have h2 : a ≤ c ∧ c < a + (b :: bs).length := by simp; omega
      have h3 : c - a = (c - (a + 1)) + 1 := by omega
      rw [dif_pos h1, dif_pos h2]
      simp [h3]
    · rw [dif_neg h1]
      by_cases h2 : c = a
      · subst h2
        simp
      · have h3 : ¬ (a ≤ c ∧ c < a + (b :: bs).length) := by simp at h1 ⊢; omega
        rw [dif_neg h3, if_neg h2]

/-- `setBytes` changes nothing but the memory. -/
theorem State.setBytes_eq (a : Nat) (bs : List Byte) :
    s.setBytes a bs = { s with memory := (s.setBytes a bs).memory } := by
  induction bs generalizing a s with
  | nil => rfl
  | cons b bs ih => rw [State.setBytes_cons, ih]; rfl

theorem State.memoryWf_setBytes {s : State} (hs : Memory.wf s.config.font s.memory) (a : Nat) (bs : List Byte)
    (h : bs = [] ∨ a + bs.length ≤ memSize) :
    Memory.wf s.config.font (s.setBytes a bs).memory := by
  induction bs generalizing a s with
  | nil => simpa using hs
  | cons b bs ih =>
    rw [State.setBytes_cons]
    simp at h
    exact ih (s := s.setByte a b) (Memory.wf_set s.config.font hs (by omega) b) (a + 1) (Or.inr (by omega))

/-- The reset state's memory is in canonical form: it lists nothing. -/
theorem State.reset_memory_wf : Memory.wf State.reset.config.font State.reset.memory := by decide

/-- `MemWrite` keeps the canonical form. -/
theorem State.memWrite_wf {s t : State} {a : Nat} {v : Byte} (hs : Memory.wf s.config.font s.memory)
    (h : s.memWrite a v = .ok t) : Memory.wf t.config.font t.memory := by
  by_cases ha : a < memSize
  · rw [s.memWrite_of_lt ha] at h
    injection h with h
    subst h
    exact Memory.wf_set _ hs ha v
  · rw [s.memWrite_of_ge (by omega)] at h
    cases h

/-- Placing a word at a fetchable `pc` keeps the canonical form. -/
theorem State.placeWord_wf {s : State} (hs : Memory.wf s.config.font s.memory) (h : s.pc.toNat + 1 < memSize) (w : Word) :
    Memory.wf (s.placeWord w).config.font (s.placeWord w).memory :=
  Memory.wf_set _ (Memory.wf_set _ hs (by omega) _) h _

end Sys2Proof.Machine
end

