-- ==== Sys2Proof/Laws/Ops.lean ====
section
/-! SUPPORT. What the shared operations can do, said once: the call stack, the timers, the fetch, register lists, framebuffer
entries and keys. -/

namespace Sys2Proof.Machine

variable (s : State)

/-! ### Call stack (spec/41_control_flow.md R121) -/

theorem State.push_of_lt (v : Word) (h : s.sp.val < 16) :
    s.push v = some { s with stack := s.stack.set s.sp.val v h, sp := ⟨s.sp.val + 1, Nat.succ_lt_succ h⟩ } := by
  simp [State.push, h]

theorem State.push_of_full (v : Word) (h : s.sp.val = 16) : s.push v = none := by
  simp [State.push, h]

/-- A pop of a non-empty stack answers the top entry and lowers the stack pointer, no more. -/
theorem State.pop_of_pos (k : Fin 16) (h : k.val + 1 = s.sp.val) :
    s.pop = some (s.stack[k], { s with sp := ⟨k.val, by omega⟩ }) := by
  have h0 : 0 < s.sp.val := by omega
  have h1 : s.sp.val - 1 = k.val := by omega
  simp [State.pop, h0, h1]

theorem State.pop_of_empty (h : s.sp.val = 0) : s.pop = none := by
  simp [State.pop, h]

/-- Every answer of `push`. -/
theorem State.push_cases {v : Word} {t : State} (h : s.push v = some t) :
    ∃ hlt : s.sp.val < 16, t = { s with stack := s.stack.set s.sp.val v hlt, sp := ⟨s.sp.val + 1, Nat.succ_lt_succ hlt⟩ } := by
  unfold State.push at h
  split at h
  · exact ⟨_, (Option.some.inj h).symm⟩
  · cases h

/-- Every answer of `pop`. -/
theorem State.pop_cases {a : Word} {t : State} (h : s.pop = some (a, t)) :
    ∃ k : Fin 16, k.val + 1 = s.sp.val ∧ a = s.stack[k] ∧ t = { s with sp := ⟨k.val, by omega⟩ } := by
  by_cases h0 : s.sp.val = 0
  · rw [s.pop_of_empty h0] at h; cases h
  · have hb := s.sp.isLt
    refine ⟨⟨s.sp.val - 1, by omega⟩, by show s.sp.val - 1 + 1 = _; omega, ?_⟩
    rw [s.pop_of_pos ⟨s.sp.val - 1, by omega⟩ (by show s.sp.val - 1 + 1 = _; omega)] at h
    injection h with h
    injection h with h1 h2
    exact ⟨h1.symm, h2.symm⟩

/-! ### Timers (spec/60_exceptions.md R280) -/

/-- A tick is one less, and 0 stays 0. -/
theorem tick_toNat (t : Byte) : (tick t).toNat = t.toNat - 1 := by
  unfold tick
  split
  · rename_i h
    have : 0 < t.toNat := by simpa [BitVec.lt_def] using h
    rw [BitVec.toNat_sub_of_le (by rw [BitVec.le_def]; exact this)]
    rfl
  · rename_i h
    have : ¬ 0 < t.toNat := by simpa [BitVec.lt_def] using h
    omega

/-! ### Fetch (spec/40_step_cycle.md R102) -/

theorem State.fetch_of_lt (h : s.pc.toNat + 1 < memSize) :
    s.fetch = .ok (wordOfBytes (s.byteAt s.pc.toNat) (s.byteAt (s.pc.toNat + 1))) := by
  simp [State.fetch, Nat.not_le.2 h]

theorem State.fetch_of_ge (h : memSize ≤ s.pc.toNat + 1) : s.fetch = .error (.addressOutOfBounds s.pc.toNat .fetch) := by
  simp [State.fetch, h]

/-- A fetched word comes from a `pc` whose two bytes are in memory. -/
theorem State.pc_lt_of_fetch {w : Word} (h : s.fetch = .ok w) : s.pc.toNat + 1 < memSize := by
  by_contra hc
  rw [s.fetch_of_ge (by omega)] at h
  cases h

/-- A word is its high byte times 256 plus its low byte. -/
theorem wordOfBytes_toNat (hi lo : Byte) : (wordOfBytes hi lo).toNat = hi.toNat * 256 + lo.toNat := by
  have := lo.isLt
  rw [wordOfBytes, BitVec.toNat_append, Nat.shiftLeft_eq, ← Nat.shiftLeft_eq, ← Nat.shiftLeft_add_eq_or_of_lt this,
    Nat.shiftLeft_eq]

/-- The bytes of a word, put together again. -/
theorem wordOfBytes_bytes (w : Word) : wordOfBytes (highByte w) (lowByte w) = w := by
  unfold wordOfBytes highByte lowByte
  apply BitVec.eq_of_getLsbD_eq
  intro i hi
  simp only [BitVec.getLsbD_append, BitVec.getLsbD_extractLsb']
  by_cases h : i < 8
  · simp [h]
  · have h2 : i - 8 < 8 := by omega
    have h3 : 8 + (i - 8) = i := by omega
    simp [h, h2, h3]

/-! ### Register lists -/

/-- `setRegsFrom` changes nothing but the registers. -/
theorem State.setRegsFrom_eq (k : Nat) (bs : List Byte) :
    s.setRegsFrom k bs = { s with V := (s.setRegsFrom k bs).V } := by
  induction bs generalizing s k with
  | nil => rfl
  | cons b bs ih => unfold State.setRegsFrom; rw [ih]

/-- The registers after `setRegsFrom`: one byte each from `k` up, every other register as before. -/
theorem State.reg_setRegsFrom (k : Nat) (bs : List Byte) (r : Nibble) :
    (s.setRegsFrom k bs).reg r = if h : k ≤ r.toNat ∧ r.toNat < k + bs.length then bs[r.toNat - k]'(by omega) else s.reg r := by
  induction bs generalizing s k with
  | nil =>
    have : ¬ (k ≤ r.toNat ∧ r.toNat < k) := by omega
    simp [State.setRegsFrom, this]
  | cons b bs ih =>
    unfold State.setRegsFrom
    rw [ih]
    by_cases h1 : k + 1 ≤ r.toNat ∧ r.toNat < k + 1 + bs.length
    · have h2 : k ≤ r.toNat ∧ r.toNat < k + (b :: bs).length := by simp; omega
      have h3 : r.toNat - k = (r.toNat - (k + 1)) + 1 := by omega
      rw [dif_pos h1, dif_pos h2]
      simp [h3]
    · rw [dif_neg h1]
      by_cases h2 : r.toNat = k
      · subst h2
        simp [State.reg]
      · have h3 : ¬ (k ≤ r.toNat ∧ r.toNat < k + (b :: bs).length) := by simp at h1 ⊢; omega
        rw [dif_neg h3]
        simp [State.reg, Ne.symm h2]

@[simp] theorem State.length_regsUpTo (x : Nibble) : (s.regsUpTo x).length = x.toNat + 1 := by
  have := x.isLt
  simp [State.regsUpTo]
  omega

theorem State.getElem_regsUpTo (x r : Nibble) (h : r.toNat < (s.regsUpTo x).length) :
    (s.regsUpTo x)[r.toNat]'h = s.reg r := by
  simp [State.regsUpTo, State.reg]

/-- `advanceIndex` changes `I` at most. -/
theorem State.advanceIndex_eq (x : Nibble) :
    s.advanceIndex x = s.setI (if s.quirks.loadStoreIncI then s.I + BitVec.ofNat 16 (regCount x) else s.I) := by
  unfold State.advanceIndex
  split <;> simp_all [State.setI]

/-! ### Framebuffer entries (spec/10_state.md R30) -/

theorem Framebuffer.get_set (fb : Framebuffer) (j k : Fin 2048) (b : Bool) :
    Framebuffer.get (Framebuffer.set fb j b) k = if k = j then b else Framebuffer.get fb k := by
  unfold Framebuffer.get Framebuffer.set
  by_cases hr : j.val / 64 = k.val / 64
  · by_cases hc : j.val % 64 = k.val % 64
    · have : k = j := Fin.ext (by omega)
      subst this
      simp
    · have : k ≠ j := fun e => hc (by rw [e])
      simp [hr, hc, this]
  · have : k ≠ j := fun e => hr (by rw [e])
    simp [hr, this]

@[simp] theorem Framebuffer.get_blank (k : Fin 2048) : Framebuffer.get Framebuffer.blank k = false := by
  simp [Framebuffer.get, Framebuffer.blank]

/-- Framebuffers with equal entries are equal. -/
theorem Framebuffer.ext_get {f g : Framebuffer} (h : ∀ k, Framebuffer.get f k = Framebuffer.get g k) : f = g := by
  apply Vector.ext
  intro r hr
  apply Vector.ext
  intro c hc
  have h1 : (r * 64 + c) / 64 = r := by omega
  have h2 : (r * 64 + c) % 64 = c := by omega
  have e := h ⟨r * 64 + c, by omega⟩
  simpa only [Framebuffer.get, h1, h2] using e

/-! ### Keys -/

theorem State.keyPressed_of_lt {k : Byte} (j : Fin 16) (h : k.toNat = j.val) : s.keyPressed k = some s.key[j] := by
  simp [State.keyPressed, h]

theorem State.keyPressed_of_gt {k : Byte} (h : 15 < k.toNat) : s.keyPressed k = none := by
  simp [State.keyPressed]; omega

/-- The key that `Fx0A` stores is pressed and no lower one is. -/
theorem State.leastPressed_eq_some (k : Fin 16) :
    s.leastPressed = some k ↔ s.key[k] = true ∧ ∀ j : Fin 16, j < k → s.key[j] = false := by
  unfold State.leastPressed
  rw [List.find?_eq_some_iff_getElem]
  constructor
  · rintro ⟨h1, i, hi, h2, h3⟩
    simp at h2
    refine ⟨h1, fun j hj => ?_⟩
    have := h3 j.val (by rw [← h2] at hj; exact hj)
    simpa using this
  · rintro ⟨h1, h2⟩
    refine ⟨h1, k.val, by simp, by simp, fun j hj => ?_⟩
    have hj' : j < 16 := by omega
    simpa using h2 ⟨j, hj'⟩ hj

theorem State.leastPressed_eq_none : s.leastPressed = none ↔ ∀ k : Fin 16, s.key[k] = false := by
  simp [State.leastPressed, List.find?_eq_none]

end Sys2Proof.Machine
end

