-- ==== Sys2Proof/Laws/Draw.lean ====
section
/-! SUPPORT. The compositor: which pixels a sprite has, that its set bits land on distinct framebuffer entries, and what
drawing them does (spec/44_draw.md R180 to R186). -/

namespace Sys2Proof.Machine

theorem mem_rowPixels (x0 y : Nat) (row : Byte) (p : Nat × Nat) :
    p ∈ rowPixels x0 y row ↔ ∃ b, b < 8 ∧ row.getLsbD (7 - b) = true ∧ p = (x0 + b, y) := by
  simp only [rowPixels, List.mem_map, List.mem_filter, List.mem_range, and_assoc]
  constructor
  · rintro ⟨b, h1, h2, h3⟩; exact ⟨b, h1, h2, h3.symm⟩
  · rintro ⟨b, h1, h2, h3⟩; exact ⟨b, h1, h2, h3.symm⟩

/-- The pixels of a sprite are its set bits. -/
theorem mem_spritePixels (x0 y : Nat) (rows : List Byte) (p : Nat × Nat) :
    p ∈ spritePixels x0 y rows ↔
      ∃ (r b : Nat) (h : r < rows.length), b < 8 ∧ rows[r].getLsbD (7 - b) = true ∧ p = (x0 + b, y + r) := by
  induction rows generalizing y with
  | nil => simp [spritePixels]
  | cons row rows ih =>
    simp only [spritePixels, List.mem_append, mem_rowPixels, ih]
    constructor
    · rintro (⟨b, h1, h2, h3⟩ | ⟨r, b, h, h1, h2, h3⟩)
      · exact ⟨0, b, by simp, h1, by simpa using h2, by simpa using h3⟩
      · exact ⟨r + 1, b, by simpa using h, h1, by simpa using h2, by rw [h3]; congr 1; omega⟩
    · rintro ⟨r, b, h, h1, h2, h3⟩
      cases r with
      | zero => exact Or.inl ⟨b, h1, by simpa using h2, by simpa using h3⟩
      | succ r =>
        exact Or.inr ⟨r, b, by simpa using h, h1, by simpa using h2, by rw [h3]; congr 1; omega⟩

/-- Drawing order: row by row, and left to right within a row. -/
def Before (p q : Nat × Nat) : Prop := p.2 < q.2 ∨ (p.2 = q.2 ∧ p.1 < q.1)

theorem pairwise_rowPixels (x0 y : Nat) (row : Byte) : (rowPixels x0 y row).Pairwise Before := by
  unfold rowPixels
  rw [List.pairwise_map]
  refine List.Pairwise.filter _ (List.Pairwise.imp ?_ List.pairwise_lt_range)
  intro a b h
  exact Or.inr ⟨rfl, by simpa using h⟩

theorem pairwise_spritePixels (x0 y : Nat) (rows : List Byte) : (spritePixels x0 y rows).Pairwise Before := by
  induction rows generalizing y with
  | nil => exact List.Pairwise.nil
  | cons row rows ih =>
    refine List.pairwise_append.2 ⟨pairwise_rowPixels x0 y row, ih (y + 1), ?_⟩
    intro p hp q hq
    obtain ⟨b, _, _, rfl⟩ := (mem_rowPixels x0 y row p).1 hp
    obtain ⟨r, c, _, _, _, rfl⟩ := (mem_spritePixels x0 (y + 1) rows q).1 hq
    left
    show y < y + 1 + r
    omega

/-- Distinct set bits of a sprite land on distinct entries, under every `DRAW_EDGE` (R186). -/
theorem pixelIndex_ne_of_before {edge : DrawEdge} {x0 y0 : Nat} {p q : Nat × Nat} (hb : Before p q)
    (hp : x0 ≤ p.1 ∧ p.1 < x0 + 8 ∧ y0 ≤ p.2 ∧ p.2 < y0 + 16) (hq : x0 ≤ q.1 ∧ q.1 < x0 + 8 ∧ y0 ≤ q.2 ∧ q.2 < y0 + 16)
    {k : Fin 2048} (h : pixelIndex edge p.1 p.2 = .entry k) : pixelIndex edge q.1 q.2 ≠ .entry k := by
  intro h'
  unfold Before at hb
  cases edge with
  | wrap =>
    simp only [pixelIndex, PixelTarget.entry.injEq] at h h'
    have e := congrArg Fin.val (h.trans h'.symm)
    simp only at e
    omega
  | clip =>
    simp only [pixelIndex] at h h'
    split at h <;> split at h' <;> simp_all
    have e := congrArg Fin.val (h.trans h'.symm)
    simp only at e
    omega
  | flat =>
    simp only [pixelIndex] at h h'
    split at h <;> split at h' <;> simp_all
    have e := congrArg Fin.val (h.trans h'.symm)
    simp only at e
    omega

/-- What drawing a list of set bits does when none faults and no two land on one entry: each entry landed on is toggled,
and the collision flag says whether one of them was lit. -/
theorem Canvas.plotAll_spec (edge : DrawEdge) (ps : List (Nat × Nat)) (c : Canvas)
    (hin : ∀ p ∈ ps, ∀ k, pixelIndex edge p.1 p.2 ≠ .outOfRange k)
    (hne : ps.Pairwise (fun p q => ∀ k, pixelIndex edge p.1 p.2 = .entry k → pixelIndex edge q.1 q.2 ≠ .entry k)) :
    ∃ d, c.plotAll edge ps = .ok d ∧
      (∀ k, (∃ p ∈ ps, pixelIndex edge p.1 p.2 = .entry k) → Framebuffer.get d.fb k = !Framebuffer.get c.fb k) ∧
      (∀ k, (¬∃ p ∈ ps, pixelIndex edge p.1 p.2 = .entry k) → Framebuffer.get d.fb k = Framebuffer.get c.fb k) ∧
      (d.hit = true ↔ c.hit = true ∨ ∃ k, (∃ p ∈ ps, pixelIndex edge p.1 p.2 = .entry k) ∧ Framebuffer.get c.fb k = true) := by
  induction ps generalizing c with
  | nil => exact ⟨c, rfl, by simp, by simp, by simp⟩
  | cons p ps ih =>
    obtain ⟨hp, hne'⟩ := List.pairwise_cons.1 hne
    have hin' : ∀ q ∈ ps, ∀ k, pixelIndex edge q.1 q.2 ≠ .outOfRange k := fun q hq => hin q (by simp [hq])
    cases ht : pixelIndex edge p.1 p.2 with
    | outOfRange k => exact absurd ht (hin p (by simp) k)
    | none =>
      obtain ⟨d, h1, h2, h3, h4⟩ := ih c hin' hne'
      refine ⟨d, by simp [Canvas.plotAll, Canvas.plot, ht, h1], fun k hk => h2 k ?_, fun k hk => h3 k ?_, ?_⟩
      · obtain ⟨q, hq, e⟩ := hk
        rcases List.mem_cons.1 hq with rfl | hq
        · rw [ht] at e; cases e
        · exact ⟨q, hq, e⟩
      · rintro ⟨q, hq, e⟩; exact hk ⟨q, by simp [hq], e⟩
      · simp [h4, ht]
    | entry j =>
      obtain ⟨d, h1, h2, h3, h4⟩ :=
        ih ⟨Framebuffer.set c.fb j (!Framebuffer.get c.fb j), c.hit || Framebuffer.get c.fb j⟩ hin' hne'
      have hj : ¬∃ q ∈ ps, pixelIndex edge q.1 q.2 = .entry j := by
        rintro ⟨q, hq, e⟩; exact hp q hq j ht e
      refine ⟨d, by simp only [Canvas.plotAll, Canvas.plot, ht, h1], fun k hk => ?_, fun k hk => ?_, ?_⟩
      · by_cases hkj : k = j
        · subst hkj
          rw [h3 k hj, Framebuffer.get_set, if_pos rfl]
        · have : ∃ q ∈ ps, pixelIndex edge q.1 q.2 = .entry k := by
            obtain ⟨q, hq, e⟩ := hk
            rcases List.mem_cons.1 hq with rfl | hq
            · rw [ht] at e; exact absurd (PixelTarget.entry.inj e).symm hkj
            · exact ⟨q, hq, e⟩
          rw [h2 k this, Framebuffer.get_set, if_neg hkj]
      · have hkj : k ≠ j := fun e => hk ⟨p, by simp, by rw [ht, e]⟩
        rw [h3 k (fun ⟨q, hq, e⟩ => hk ⟨q, by simp [hq], e⟩), Framebuffer.get_set, if_neg hkj]
      · rw [h4]
        constructor
        · rintro (h | ⟨k, hk, hg⟩)
          · rcases Bool.or_eq_true _ _ ▸ h with h | h
            · exact Or.inl h
            · exact Or.inr ⟨j, ⟨p, by simp, ht⟩, h⟩
          · have hkj : k ≠ j := fun e => hj (e ▸ hk)
            rw [Framebuffer.get_set, if_neg hkj] at hg
            obtain ⟨q, hq, e⟩ := hk
            exact Or.inr ⟨k, ⟨q, by simp [hq], e⟩, hg⟩
        · rintro (h | ⟨k, ⟨q, hq, e⟩, hg⟩)
          · left; simp [h]
          · rcases List.mem_cons.1 hq with rfl | hq
            · rw [ht] at e
              have := PixelTarget.entry.inj e
              subst this
              left; simp [hg]
            · have hkj : k ≠ j := fun h => hj ⟨q, hq, h ▸ e⟩
              exact Or.inr ⟨k, ⟨q, hq, e⟩, by rw [Framebuffer.get_set, if_neg hkj]; exact hg⟩

/-- Drawing stops at the first bit past the framebuffer. -/
theorem Canvas.plotAll_fault (edge : DrawEdge) (ps qs : List (Nat × Nat)) (p : Nat × Nat) (c : Canvas) (k : Nat)
    (hin : ∀ q ∈ ps, ∀ k, pixelIndex edge q.1 q.2 ≠ .outOfRange k) (hp : pixelIndex edge p.1 p.2 = .outOfRange k) :
    c.plotAll edge (ps ++ p :: qs) = .error (.framebufferIndexOutOfRange k) := by
  induction ps generalizing c with
  | nil => simp [Canvas.plotAll, Canvas.plot, hp]
  | cons q ps ih =>
    have hin' : ∀ r ∈ ps, ∀ k, pixelIndex edge r.1 r.2 ≠ .outOfRange k := fun r hr => hin r (by simp [hr])
    cases ht : pixelIndex edge q.1 q.2 with
    | outOfRange j => exact absurd ht (hin q (by simp) j)
    | none => simp [Canvas.plotAll, Canvas.plot, ht, ih c hin']
    | entry j => simp [Canvas.plotAll, Canvas.plot, ht, ih _ hin']

/-- The only fault of drawing is a pixel past the framebuffer, under FLAT. -/
theorem Canvas.plotAll_error {edge : DrawEdge} {ps : List (Nat × Nat)} {c : Canvas} {f : Fault}
    (h : c.plotAll edge ps = .error f) : edge = .flat ∧ ∃ k, k ≥ 2048 ∧ f = .framebufferIndexOutOfRange k := by
  induction ps generalizing c with
  | nil => simp [Canvas.plotAll] at h
  | cons p ps ih =>
    simp only [Canvas.plotAll] at h
    cases hd : c.plot edge p.1 p.2 with
    | ok d => rw [hd] at h; exact ih h
    | error g =>
      rw [hd] at h
      injection h with h
      subst h
      unfold Canvas.plot at hd
      cases ht : pixelIndex edge p.1 p.2 with
      | entry j => rw [ht] at hd; cases hd
      | none => rw [ht] at hd; cases hd
      | outOfRange k =>
        rw [ht] at hd
        injection hd with hd
        cases edge with
        | wrap => simp [pixelIndex] at ht
        | clip => simp only [pixelIndex] at ht; split at ht <;> cases ht
        | flat =>
          simp only [pixelIndex] at ht
          split at ht
          · cases ht
          · injection ht with ht
            exact ⟨rfl, k, by omega, hd.symm⟩

end Sys2Proof.Machine
end

