-- ==== Sys2Proof/Laws/Flags.lean ====
section
/-! SUPPORT. The flag values as numbers, and what the optional clearing of `VF` does (spec/42_register_alu.md R146, R147;
spec/47_full_profile.md R226 to R230). -/

namespace Sys2Proof.Machine

@[simp] theorem flagByte_true : flagByte true = 1 := rfl
@[simp] theorem flagByte_false : flagByte false = 0 := rfl

theorem flagByte_toNat (b : Bool) : (flagByte b).toNat = if b then 1 else 0 := by
  cases b <;> rfl

theorem carryFlag_toNat (a b : Byte) : (carryFlag a b).toNat = if a.toNat + b.toNat > 255 then 1 else 0 := by
  simp [carryFlag, flagByte_toNat]

theorem notBorrowFlag_toNat (a b : Byte) : (notBorrowFlag a b).toNat = if a.toNat < b.toNat then 0 else 1 := by
  rw [notBorrowFlag, flagByte_toNat]
  by_cases h : a.toNat < b.toNat <;> simp [h]

theorem shiftedOutRight_toNat (v : Byte) : (shiftedOutRight v).toNat = v.toNat % 2 := by
  rw [shiftedOutRight, flagByte_toNat, BitVec.getLsbD, Nat.testBit_zero]
  simp only [decide_eq_true_eq]
  split <;> omega

theorem shiftedOutLeft_toNat (v : Byte) : (shiftedOutLeft v).toNat = v.toNat / 128 := by
  have := v.isLt
  rw [shiftedOutLeft, flagByte_toNat, BitVec.getLsbD, Nat.testBit_eq_decide_div_mod_eq]
  simp only [decide_eq_true_eq]
  split <;> omega

variable (s : State)

/-- `logicFlag` changes `VF` at most, and only under `LOGIC_RESETS_VF`. -/
theorem State.reg_logicFlag (r : Nibble) :
    s.logicFlag.reg r = if r = vf ∧ s.quirks.logicResetsVF = true then 0 else s.reg r := by
  unfold State.logicFlag
  by_cases h : s.quirks.logicResetsVF = true <;> simp [h, State.reg_setFlag]

theorem State.logicFlag_eq : s.logicFlag = { s with V := s.logicFlag.V } := by
  unfold State.logicFlag
  split <;> rfl

end Sys2Proof.Machine
end

