-- ==== Sys2Proof/Laws/Step.lean ====
section
/-! SUPPORT. Everything a step can answer, said once (spec/40_step_cycle.md R100). -/

namespace Sys2Proof.Machine

variable {s : State}

/-- A step that answers a next state ran one decoded instruction, to its end, and ticked. -/
theorem step_next_cases {t : State} (h : step s = .next t) :
    s.status = .running ∧ ∃ w i u, s.fetch = .ok w ∧ decode s.config.profile w = .ok i ∧ exec i s = .next u ∧ t = u.tickTimers := by
  unfold step at h
  split at h
  · cases h
  · rename_i hr
    split at h
    · cases h
    · rename_i w hw
      split at h
      · cases h
      · rename_i i hi
        split at h
        · rename_i u hu
          injection h with h
          exact ⟨hr, w, i, u, hw, hi, hu, h.symm⟩
        · cases h
        · cases h

/-- A step that faults was already faulted, or its fetch, its decoding or its instruction faulted. -/
theorem step_fault_cases {f : Fault} (h : step s = .fault f) :
    s.status = .faulted f ∨ s.status = .running ∧
      (s.fetch = .error f ∨
       (∃ w u, s.fetch = .ok w ∧ decode s.config.profile w = .error (.unknownOpcode u) ∧ f = .unknownOpcode u) ∨
       (∃ w i, s.fetch = .ok w ∧ decode s.config.profile w = .ok i ∧ exec i s = .fault f)) := by
  unfold step at h
  split at h
  · rename_i hr
    injection h with h
    exact Or.inl (h ▸ hr)
  · rename_i hr
    right
    refine ⟨hr, ?_⟩
    split at h
    · rename_i g hg
      injection h with h
      exact Or.inl (h ▸ hg)
    · rename_i w hw
      right
      split at h
      · rename_i u hu
        injection h with h
        exact Or.inl ⟨w, u, hw, hu, h.symm⟩
      · rename_i i hi
        right
        refine ⟨w, i, hw, hi, ?_⟩
        split at h
        · cases h
        · rename_i g hg
          injection h with h
          exact h ▸ hg
        · cases h

/-- A step that is refused ran an instruction that is. -/
theorem step_refused_cases {r : Refusal} (h : step s = .refused r) :
    ∃ w i, s.fetch = .ok w ∧ decode s.config.profile w = .ok i ∧ exec i s = .refused r := by
  unfold step at h
  split at h
  · cases h
  · split at h
    · cases h
    · rename_i w hw
      split at h
      · cases h
      · rename_i i hi
        refine ⟨w, i, hw, hi, ?_⟩
        split at h
        · cases h
        · cases h
        · rename_i g hg
          injection h with h
          exact h ▸ hg

/-- The driver's step by the outcome of `step`. -/
theorem driverStep_of_next {t : State} (h : step s = .next t) : driverStep s = (t, .ok) := by
  simp [driverStep, h]

theorem driverStep_of_fault {f : Fault} (h : step s = .fault f) : driverStep s = (s.enterFaulted f, .stepFault f) := by
  simp [driverStep, h]

theorem driverStep_of_refused {r : Refusal} (h : step s = .refused r) : driverStep s = (s, .stepRefused r) := by
  simp [driverStep, h]

/-- Words stored at `pc` are fetched from there (spec/20_memory.md R66, R74). -/
theorem State.fetch_placeWord (w : Word) (h : s.pc.toNat + 1 < memSize) : (s.placeWord w).fetch = .ok w := by
  have hp : (s.placeWord w).pc = s.pc := rfl
  rw [State.fetch_of_lt _ (by rw [hp]; exact h), hp]
  unfold State.placeWord
  rw [State.byteAt_setByte, State.byteAt_setByte, State.byteAt_setByte, if_neg (by omega), if_pos rfl, if_pos rfl,
    wordOfBytes_bytes]

end Sys2Proof.Machine
end

