-- ==== Sys2Proof/Laws/Exec.lean ====
section
/-! SUPPORT. The shared operations in the terms of Safety.lean: what each keeps of the state, what an answer of a memory
operation says, and a sprite's pixels as the framebuffer entries it covers. -/

namespace Sys2Proof.Machine

variable (s : State)

/-! ### What the operations keep -/

theorem same_refl (p : Part) : p.same s s := by
  cases p <;> simp [Part.same]

theorem setReg_same (x : Nibble) (v : Byte) {p : Part} (hp : p ≠ .V) : p.same s (s.setReg x v) := by
  cases p <;> simp_all [Part.same]

theorem setFlag_same (v : Byte) {p : Part} (hp : p ≠ .V) : p.same s (s.setFlag v) :=
  setReg_same s vf v hp

theorem setI_same (v : Word) {p : Part} (hp : p ≠ .I) : p.same s (s.setI v) := by
  cases p <;> simp_all [Part.same]

theorem advance_same {p : Part} (hp : p ≠ .pc) : p.same s s.advance := by
  cases p <;> simp_all [Part.same]

theorem skipIf_same (c : Bool) {p : Part} (hp : p ≠ .pc) : p.same s (s.skipIf c) := by
  cases p <;> simp_all [Part.same]

theorem jumpTo_same (a : Word) {p : Part} (hp : p ≠ .pc) : p.same s (s.jumpTo a) := by
  cases p <;> simp_all [Part.same]

theorem logicFlag_same {p : Part} (hp : p ≠ .V) : p.same s s.logicFlag := by
  unfold State.logicFlag
  split
  · exact setFlag_same s 0 hp
  · exact same_refl s p

theorem advanceIndex_same (x : Nibble) {p : Part} (hp : p ≠ .I) : p.same s (s.advanceIndex x) := by
  rw [State.advanceIndex_eq]
  exact setI_same s _ hp

theorem setBytes_same (a : Nat) (bs : List Byte) {p : Part} (hp : p ≠ .memory) : p.same s (s.setBytes a bs) := by
  rw [State.setBytes_eq]
  cases p <;> first | exact absurd rfl hp | rfl | (intro r; rfl)

theorem setRegsFrom_same (k : Nat) (bs : List Byte) {p : Part} (hp : p ≠ .V) : p.same s (s.setRegsFrom k bs) := by
  rw [State.setRegsFrom_eq]
  cases p <;> first | exact absurd rfl hp | rfl | (intro r; rfl)

theorem setCanvas_same (c : Canvas) {p : Part} (hp : p ≠ .V ∧ p ≠ .fb ∧ p ≠ .needsRedraw) : p.same s (s.setCanvas c) := by
  cases p <;> first | (exact absurd rfl hp.1) | (exact absurd rfl hp.2.1) | (exact absurd rfl hp.2.2) | rfl | (intro r; rfl)

theorem Part.same_trans {p : Part} {s t u : State} (h₁ : p.same s t) (h₂ : p.same t u) : p.same s u := by
  cases p <;> first | exact h₂.trans h₁ | exact fun a => (h₂ a).trans (h₁ a)

/-! ### Answers of the memory operations -/

variable {s}

theorem writeBytes_ok {a : Nat} {bs : List Byte} {t : State} (h : s.writeBytes a bs = .ok t) :
    t = s.setBytes a bs ∧ (bs = [] ∨ a + bs.length ≤ memSize) := by
  rw [s.writeBytes_eq] at h
  split at h
  · rename_i hb
    injection h with h
    exact ⟨h.symm, hb⟩
  · cases h

theorem readBytes_ok {a n : Nat} {bs : List Byte} (h : s.readBytes a n = .ok bs) :
    bs = (List.range' a n).map s.byteAt ∧ (n = 0 ∨ a + n ≤ memSize) := by
  rw [s.readBytes_eq] at h
  split at h
  · rename_i hb
    injection h with h
    exact ⟨h.symm, hb⟩
  · cases h

/-! ### Sprites -/

variable (s) (x y n : Nibble)

/-- The set bits of the sprite of a draw, in drawing order. -/
def drawPixels : List (Nat × Nat) :=
  spritePixels (startColumn (s.reg x)) (startRow (s.reg y)) ((List.range' s.I.toNat n.toNat).map s.byteAt)

theorem mem_drawPixels (p : Nat × Nat) : p ∈ drawPixels s x y n ↔
    ∃ r b, r < n.toNat ∧ b < 8 ∧ spriteBit s r b ∧ p = ((s.reg x).toNat % 64 + b, (s.reg y).toNat % 32 + r) := by
  rw [drawPixels, mem_spritePixels]
  constructor
  · rintro ⟨r, b, h1, h2, h3, rfl⟩
    simp at h1 h3
    exact ⟨r, b, h1, h2, h3, rfl⟩
  · rintro ⟨r, b, h1, h2, h3, rfl⟩
    exact ⟨r, b, by simpa using h1, h2, by simpa [spriteBit] using h3, rfl⟩

/-- The entries that the pixels of a draw land on are the ones its sprite covers. -/
theorem drawPixels_cover (k : Fin 2048) :
    (∃ p ∈ drawPixels s x y n, pixelIndex s.config.drawEdge p.1 p.2 = .entry k) ↔ SpriteCovers x y n s k := by
  constructor
  · rintro ⟨p, hp, h⟩
    obtain ⟨r, b, h1, h2, h3, rfl⟩ := (mem_drawPixels s x y n p).1 hp
    exact ⟨r, b, h1, h2, h3, h⟩
  · rintro ⟨r, b, h1, h2, h3, h⟩
    exact ⟨_, (mem_drawPixels s x y n _).2 ⟨r, b, h1, h2, h3, rfl⟩, h⟩

/-- No two set bits of a draw land on one entry. -/
theorem drawPixels_distinct (edge : DrawEdge) : (drawPixels s x y n).Pairwise (fun p q =>
    ∀ k, pixelIndex edge p.1 p.2 = .entry k → pixelIndex edge q.1 q.2 ≠ .entry k) := by
  have hn := n.isLt
  refine List.Pairwise.imp_of_mem (fun {p q} hp hq hb k hk => ?_) (pairwise_spritePixels _ _ _)
  obtain ⟨r, b, _, _, _, rfl⟩ := (mem_drawPixels s x y n p).1 hp
  obtain ⟨r', b', _, _, _, rfl⟩ := (mem_drawPixels s x y n q).1 hq
  exact pixelIndex_ne_of_before hb (x0 := (s.reg x).toNat % 64) (y0 := (s.reg y).toNat % 32) (by simp only; omega)
    (by simp only; omega) hk

/-- Readable rows are read. -/
theorem readBytes_of_readable (h : RowsReadable n s) :
    s.readBytes s.I.toNat n.toNat = .ok ((List.range' s.I.toNat n.toNat).map s.byteAt) := by
  rw [s.readBytes_eq, if_pos (by exact h)]

theorem readBytes_of_not_readable (h : ¬RowsReadable n s) :
    s.readBytes s.I.toNat n.toNat = .error (.addressOutOfBounds (max s.I.toNat memSize) .read) := by
  rw [s.readBytes_eq, if_neg (by exact h)]

/-- WRAP and CLIP have no index past the framebuffer. -/
theorem pixelIndex_ne_outOfRange {edge : DrawEdge} (h : edge ≠ .flat) (px py k : Nat) :
    pixelIndex edge px py ≠ .outOfRange k := by
  cases edge with
  | wrap => simp [pixelIndex]
  | clip => simp only [pixelIndex]; split <;> simp
  | flat => exact absurd rfl h

/-! ### Refusals -/

/-- Only `Fx0A` is refused, and only under `WAIT_FOR_RELEASE` (spec/47_full_profile.md R233). -/
theorem exec_refused_cases {i : Instr} {r : Refusal} (h : exec i s = .refused r) :
    r = .waitForReleaseNotGiven ∧ s.quirks.waitForRelease = true ∧ ∃ x, i = .ldVxK x := by
  cases i
  case ldVxK x =>
    simp only [exec, execLdVxK] at h
    split at h
    · rename_i hq
      injection h with h
      exact ⟨h.symm, hq, x, rfl⟩
    · split at h <;> cases h
  all_goals
    simp only [exec, execRet, execCall, execLdB, execLdVxI, execLdIVx, execDrw, execSknp, execSkp, raise] at h
    repeat' split at h
    all_goals cases h

end Sys2Proof.Machine
end

