-- ==== Sys2Proof/Laws/PerInstr.lean ====
section
/-! SUPPORT. Statements made per instruction. Family SelectsOwnRow: an instruction's word selects its row of the opcode table
(spec/30_encoding.md R85, spec/47_full_profile.md R222). -/

namespace Sys2Proof.Laws.SelectsOwnRow

/-- The word of `i` selects the row of `i`. -/
def Statement (i : Instr) : Prop := i.row.selects (encode i) = true

theorem selects_of_eq {r : OpcodeRow} {w : Word} (h : w &&& r.mask = r.bits) : r.selects w = true := by
  simp [OpcodeRow.selects, h]

theorem ret : Statement .ret := by unfold Statement; decide
theorem jp (nnn : Address) : Statement (.jp nnn) := selects_of_eq ((and_F000 _).trans (by simp [encode, Instr.row]; decide))
theorem call (nnn : Address) : Statement (.call nnn) := selects_of_eq ((and_F000 _).trans (by simp [encode, Instr.row]; decide))
theorem seImm (x : Nibble) (nn : Byte) : Statement (.seImm x nn) := selects_of_eq ((and_F000 _).trans (by simp [encode, Instr.row]; decide))
theorem sneImm (x : Nibble) (nn : Byte) : Statement (.sneImm x nn) := selects_of_eq ((and_F000 _).trans (by simp [encode, Instr.row]; decide))
theorem ldImm (x : Nibble) (nn : Byte) : Statement (.ldImm x nn) := selects_of_eq ((and_F000 _).trans (by simp [encode, Instr.row]; decide))
theorem addImm (x : Nibble) (nn : Byte) : Statement (.addImm x nn) := selects_of_eq ((and_F000 _).trans (by simp [encode, Instr.row]; decide))
theorem ldReg (x : Nibble) (y : Nibble) : Statement (.ldReg x y) := selects_of_eq ((and_F00F _).trans (by simp [encode, Instr.row]; decide))
theorem andReg (x : Nibble) (y : Nibble) : Statement (.andReg x y) := selects_of_eq ((and_F00F _).trans (by simp [encode, Instr.row]; decide))
theorem addReg (x : Nibble) (y : Nibble) : Statement (.addReg x y) := selects_of_eq ((and_F00F _).trans (by simp [encode, Instr.row]; decide))
theorem subReg (x : Nibble) (y : Nibble) : Statement (.subReg x y) := selects_of_eq ((and_F00F _).trans (by simp [encode, Instr.row]; decide))
theorem ldI (nnn : Address) : Statement (.ldI nnn) := selects_of_eq ((and_F000 _).trans (by simp [encode, Instr.row]; decide))
theorem rnd (x : Nibble) (nn : Byte) : Statement (.rnd x nn) := selects_of_eq ((and_F000 _).trans (by simp [encode, Instr.row]; decide))
theorem drw (x : Nibble) (y : Nibble) (n : Nibble) : Statement (.drw x y n) := selects_of_eq ((and_F000 _).trans (by simp [encode, Instr.row]; decide))
theorem sknp (x : Nibble) : Statement (.sknp x) := selects_of_eq ((and_F0FF _).trans (by simp [encode, Instr.row]; decide))
theorem ldVxDt (x : Nibble) : Statement (.ldVxDt x) := selects_of_eq ((and_F0FF _).trans (by simp [encode, Instr.row]; decide))
theorem ldDtVx (x : Nibble) : Statement (.ldDtVx x) := selects_of_eq ((and_F0FF _).trans (by simp [encode, Instr.row]; decide))
theorem ldStVx (x : Nibble) : Statement (.ldStVx x) := selects_of_eq ((and_F0FF _).trans (by simp [encode, Instr.row]; decide))
theorem ldF (x : Nibble) : Statement (.ldF x) := selects_of_eq ((and_F0FF _).trans (by simp [encode, Instr.row]; decide))
theorem ldB (x : Nibble) : Statement (.ldB x) := selects_of_eq ((and_F0FF _).trans (by simp [encode, Instr.row]; decide))
theorem ldVxI (x : Nibble) : Statement (.ldVxI x) := selects_of_eq ((and_F0FF _).trans (by simp [encode, Instr.row]; decide))
theorem cls : Statement .cls := by unfold Statement; decide
theorem seReg (x : Nibble) (y : Nibble) : Statement (.seReg x y) := selects_of_eq ((and_F00F _).trans (by simp [encode, Instr.row]; decide))
theorem sneReg (x : Nibble) (y : Nibble) : Statement (.sneReg x y) := selects_of_eq ((and_F00F _).trans (by simp [encode, Instr.row]; decide))
theorem orReg (x : Nibble) (y : Nibble) : Statement (.orReg x y) := selects_of_eq ((and_F00F _).trans (by simp [encode, Instr.row]; decide))
theorem xorReg (x : Nibble) (y : Nibble) : Statement (.xorReg x y) := selects_of_eq ((and_F00F _).trans (by simp [encode, Instr.row]; decide))
theorem shr (x : Nibble) (y : Nibble) : Statement (.shr x y) := selects_of_eq ((and_F00F _).trans (by simp [encode, Instr.row]; decide))
theorem subn (x : Nibble) (y : Nibble) : Statement (.subn x y) := selects_of_eq ((and_F00F _).trans (by simp [encode, Instr.row]; decide))
theorem shl (x : Nibble) (y : Nibble) : Statement (.shl x y) := selects_of_eq ((and_F00F _).trans (by simp [encode, Instr.row]; decide))
theorem jpV0 (nnn : Address) : Statement (.jpV0 nnn) := selects_of_eq ((and_F000 _).trans (by simp [encode, Instr.row]; decide))
theorem skp (x : Nibble) : Statement (.skp x) := selects_of_eq ((and_F0FF _).trans (by simp [encode, Instr.row]; decide))
theorem ldVxK (x : Nibble) : Statement (.ldVxK x) := selects_of_eq ((and_F0FF _).trans (by simp [encode, Instr.row]; decide))
theorem addI (x : Nibble) : Statement (.addI x) := selects_of_eq ((and_F0FF _).trans (by simp [encode, Instr.row]; decide))
theorem ldIVx (x : Nibble) : Statement (.ldIVx x) := selects_of_eq ((and_F0FF _).trans (by simp [encode, Instr.row]; decide))

end Sys2Proof.Laws.SelectsOwnRow
end

