-- ==== Sys2Proof/Tests/Slice0.lean ====
section
/-! SUPPORT. Tests of the model against the vectors of spec/95_test_vectors.md and the examples of the instruction rules, the
decoding of words written out from the spec's encodings, the WellFormed smoke test, and a witness for the hypotheses of every
statement that has some. -/

namespace Sys2Proof.Tests

open Sys2Proof.Machine

/-! ### Small states -/

/-- Reset with some registers set. -/
def regs (l : List (Nibble × Byte)) : State := l.foldl (fun s p => s.setReg p.1 p.2) State.reset
/-- A state on a machine of the FULL profile. -/
def onFull (q : Quirks) (s : State) : State := { s with config := { s.config with profile := .full q } }
/-- A state on a machine with another `DRAW_EDGE`. -/
def withEdge (e : DrawEdge) (s : State) : State := { s with config := { s.config with drawEdge := e } }
/-- The state with its program counter elsewhere. -/
def atPc (pc : Word) (s : State) : State := { s with pc := pc }
/-- The state with a full call stack of one address. -/
def fullStack (a : Word) (s : State) : State := { s with stack := Vector.replicate 16 a, sp := 16 }
/-- The state with one key pressed. -/
def press (k : Fin 16) (s : State) : State := { s with key := s.key.set k.val true }
/-- The state with one pixel lit. -/
def lit (k : Fin 2048) (s : State) : State := { s with fb := s.fb.set k true }
/-- What one step on a word gives, seen through `f`. -/
def after {α : Type} (s : State) (w : Word) (f : State → α) : Option α :=
  match step (s.placeWord w) with
  | .next t => some (f t)
  | _       => none
/-- The fault of one step on a word. -/
def faultOf (s : State) (w : Word) : Option Fault :=
  match step (s.placeWord w) with
  | .fault f => some f
  | _        => none
/-- An outcome is a next state. -/
def isNext (o : Host.Outcome State Fault Refusal) : Bool :=
  match o with
  | .next _ => true
  | _       => false

theorem exists_of_isNext {o : Host.Outcome State Fault Refusal} (h : isNext o = true) : ∃ t, o = .next t := by
  cases o with
  | next t => exact ⟨t, rfl⟩
  | fault f => cases h
  | refused r => cases h

/-! ### Well-formedness: what the check refuses -/

theorem test_wellFormed_refuses_full_only_instructions : [Instr.cls, .seReg 0 0, .sneReg 0 0, .orReg 0 0, .xorReg 0 0, .shr 0 0,
    .subn 0 0, .shl 0 0, .jpV0 0, .skp 0, .ldVxK 0, .addI 0, .ldIVx 0].all (fun i => !i.wellFormed .reference) = true := by
  decide

theorem test_wellFormed_admits_them_under_full : (Instr.ldIVx 0xF).wellFormed (.full takenQuirks) = true := by decide

/-! ### Decoding (30_encoding.md R82, R85; 47_full_profile.md R222) -/

theorem test_decode_families_0_to_7 : decode .reference 0x00EE = .ok .ret ∧ decode .reference 0x1208 = .ok (.jp 0x208) ∧
    decode .reference 0x2FFF = .ok (.call 0xFFF) ∧ decode .reference 0x3305 = .ok (.seImm 3 5) ∧
    decode .reference 0x4306 = .ok (.sneImm 3 6) ∧ decode .reference 0x6AEA = .ok (.ldImm 0xA 0xEA) ∧
    decode .reference 0x7F01 = .ok (.addImm 0xF 1) := by decide

theorem test_decode_families_8_to_D : decode .reference 0x8120 = .ok (.ldReg 1 2) ∧ decode .reference 0x8122 = .ok (.andReg 1 2) ∧
    decode .reference 0x8F14 = .ok (.addReg 0xF 1) ∧ decode .reference 0x80F5 = .ok (.subReg 0 0xF) ∧
    decode .reference 0xA300 = .ok (.ldI 0x300) ∧ decode .reference 0xC00F = .ok (.rnd 0 0xF) ∧
    decode .reference 0xD12F = .ok (.drw 1 2 0xF) := by decide

theorem test_decode_families_E_and_F : decode .reference 0xE2A1 = .ok (.sknp 2) ∧ decode .reference 0xF307 = .ok (.ldVxDt 3) ∧
    decode .reference 0xF015 = .ok (.ldDtVx 0) ∧ decode .reference 0xF118 = .ok (.ldStVx 1) ∧
    decode .reference 0xF529 = .ok (.ldF 5) ∧ decode .reference 0xFA33 = .ok (.ldB 0xA) ∧
    decode .reference 0xF365 = .ok (.ldVxI 3) := by decide

theorem test_decode_full_profile : ([0x00E0, 0x5120, 0x9120, 0x8121, 0x8123, 0x8126, 0x8127, 0x812E, 0xB123, 0xE19E, 0xF10A,
    0xF11E, 0xF155].map (fun w => decode (.full takenQuirks) w)) = [.ok .cls, .ok (.seReg 1 2), .ok (.sneReg 1 2),
    .ok (.orReg 1 2), .ok (.xorReg 1 2), .ok (.shr 1 2), .ok (.subn 1 2), .ok (.shl 1 2), .ok (.jpV0 0x123), .ok (.skp 1),
    .ok (.ldVxK 1), .ok (.addI 1), .ok (.ldIVx 1)] := by decide

/-- Vectors S5 to S7: illegal words of the reference profile. -/
theorem test_decode_rejects_by_name : [0x00E0, 0x0000, 0x5120, 0x8126, 0x812E, 0x9120, 0xB123, 0xE19E, 0xF10A, 0xF11E, 0xF155,
    0xF1FF, 0xFFFF].all (fun w => decide (decode .reference w = .error (.unknownOpcode w))) = true := by decide

/-- R86: the rows of the reference profile accept 38001 words. -/
theorem test_rows_accept_38001_words : (referenceRows.map (fun r =>
    2 ^ ((List.range 16).filter (fun b => !r.mask.getLsbD b)).length)).sum = 38001 := by decide

theorem test_decodeTableWord : decodeTableWord 16 0xD12F = some (.drw 1 2 0xF) ∧ decodeTableWord 16 0x00E0 = some .cls ∧
    decodeTableWord 16 0x0000 = none := by decide

/-! ### Step, fetch and faults -/

/-- R31: glyph A stands at 0x032; the font's low nibbles are zero. -/
theorem test_font : State.reset.byteAt 0x033 = 0x90 ∧ State.reset.byteAt 0x04F = 0x80 ∧ State.reset.byteAt 0x050 = 0 ∧
    (List.range 80).all (fun a => (State.reset.byteAt a).getLsbD 0 == false) = true := by decide

/-- Vector S1. -/
theorem test_S1_fetch_at_FFE : after (atPc 0xFFE State.reset) 0x6001 (fun t => (t.reg 0, t.pc)) = some (1, 0x1000) := by decide
/-- Vector S2. -/
theorem test_S2_fetch_at_FFF_faults : faultOf (atPc 0xFFF State.reset) 0 = some (.addressOutOfBounds 0xFFF .fetch) := by decide
/-- Vector S4. -/
theorem test_S4_odd_fetch : after (atPc 0x201 State.reset) 0x6122 (fun t => (t.reg 1, t.pc)) = some (0x22, 0x203) := by decide
/-- Vector S8. -/
theorem test_S8_faulted_step : driverStep (State.reset.enterFaulted (.stackOverflow 0x200)) =
    (State.reset.enterFaulted (.stackOverflow 0x200), .stepFault (.stackOverflow 0x200)) := by decide
/-- Vector S9. -/
theorem test_S9_tick : after { State.reset with DT := 3, ST := 1 } 0x6000 (fun t => (t.DT, t.ST)) = some (2, 0) := by decide
/-- Vector S10. -/
theorem test_S10_no_tick_on_a_fault : ((driverStep { State.reset with DT := 3 }).1.DT,
    (driverStep { State.reset with DT := 3 }).2) = (3, .stepFault (.unknownOpcode 0)) := by decide
theorem test_fault_codes : [Fault.addressOutOfBounds 0 .read, .stackOverflow 0, .stackUnderflow 0, .unknownOpcode 0,
    .keyIndexOutOfRange 0, .framebufferIndexOutOfRange 0].map Fault.code = [1, 2, 3, 4, 5, 6] := by decide

/-! ### Control flow -/

/-- Vector C6. -/
theorem test_C6_ret : after (fullStack 0x300 State.reset) 0x00EE (fun t => (t.sp.val, t.pc)) = some (15, 0x302) := by decide
/-- Vector C5. -/
theorem test_C5_ret_on_empty_stack : faultOf State.reset 0x00EE = some (.stackUnderflow 0x200) := by decide
/-- Vector C8. -/
theorem test_C8_jp_to_itself : after (atPc 0x208 State.reset) 0x1208 (fun t => t.pc) = some 0x208 := by decide
/-- Vector C1. -/
theorem test_C1_call : after (atPc 0x204 State.reset) 0x220A (fun t => (t.stack[0], t.sp.val, t.pc)) =
    some (0x204, 1, 0x20A) := by decide
/-- Vector C2. -/
theorem test_C2_call_on_full_stack : faultOf (fullStack 0 State.reset) 0x2300 = some (.stackOverflow 0x200) := by decide
/-- Vector C9. -/
theorem test_C9_seImm : after (regs [(3, 5)]) 0x3305 (fun t => t.pc) = some 0x204 := by decide
/-- Vector C10. -/
theorem test_C10_seImm : after (regs [(3, 5)]) 0x3306 (fun t => t.pc) = some 0x202 := by decide
/-- Vector C11. -/
theorem test_C11_sneImm : after (regs [(3, 5)]) 0x4305 (fun t => t.pc) = some 0x202 := by decide
/-- Vector C12. -/
theorem test_C12_sneImm : after (regs [(3, 5)]) 0x4306 (fun t => t.pc) = some 0x204 := by decide
/-- Example of R224. -/
theorem test_seReg : after (onFull takenQuirks (regs [(0, 7), (1, 7)])) 0x5010 (fun t => t.pc) = some 0x204 := by decide
/-- Example of R225. -/
theorem test_sneReg : after (onFull takenQuirks (regs [(0, 1), (1, 2)])) 0x9010 (fun t => t.pc) = some 0x204 := by decide
/-- Example of R231. -/
theorem test_jpV0 : after (onFull takenQuirks (regs [(0, 4)])) 0xB300 (fun t => t.pc) = some 0x304 := by decide
/-- R231 with `JUMP_OFFSET_REG = VX`: the register is `V3`. -/
theorem test_jpV0_vx : after (onFull { takenQuirks with jumpOffsetReg := .vx } (regs [(0, 4), (3, 5)])) 0xB300 (fun t => t.pc) =
    some 0x305 := by decide

/-! ### Registers and the ALU -/

/-- Vector A1. -/
theorem test_A1_ldImm : after State.reset 0x6005 (fun t => t.reg 0) = some 5 := by decide
/-- Vector A2. -/
theorem test_A2_addImm : after (regs [(0, 0xFF), (0xF, 0x55)]) 0x7001 (fun t => (t.reg 0, t.reg 0xF)) = some (0, 0x55) := by decide
/-- Vector A3. -/
theorem test_A3_addImm_to_vf : after (regs [(0xF, 0xFF)]) 0x7F01 (fun t => t.reg 0xF) = some 0 := by decide
/-- Vector A5. -/
theorem test_A5_ldReg : after (regs [(1, 0x2A)]) 0x8010 (fun t => t.reg 0) = some 0x2A := by decide
/-- Vector A6. -/
theorem test_A6_andReg : after (regs [(0, 0xF0), (1, 0x3C), (0xF, 7)]) 0x8012 (fun t => (t.reg 0, t.reg 0xF)) =
    some (0x30, 7) := by decide
/-- Vector A8. -/
theorem test_A8_addReg : after (regs [(0, 0xFF), (1, 1)]) 0x8014 (fun t => (t.reg 0, t.reg 0xF)) = some (0, 1) := by decide
/-- Vector A14. -/
theorem test_A14_addReg_to_vf : after (regs [(0xF, 0x10), (1, 0x20)]) 0x8F14 (fun t => t.reg 0xF) = some 0 := by decide
/-- Vector A17. -/
theorem test_A17_subReg : after (regs [(0, 3), (1, 5)]) 0x8015 (fun t => (t.reg 0, t.reg 0xF)) = some (0xFE, 0) := by decide
/-- Vector A23. -/
theorem test_A23_subReg_of_vf : after (regs [(0, 0x10), (0xF, 1)]) 0x80F5 (fun t => (t.reg 0, t.reg 0xF)) =
    some (0xF, 1) := by decide
/-- Vector A26, whatever the draw. -/
theorem test_A26_rnd : after State.reset 0xC0FF (fun t => t.reg 0) = some (Config.randomByte 0 &&& 0xFF) := rfl
/-- Example of R226. -/
theorem test_orReg : after (onFull takenQuirks (regs [(0, 0xF0), (1, 0xF), (0xF, 3)])) 0x8011
    (fun t => (t.reg 0, t.reg 0xF)) = some (0xFF, 3) := by decide
/-- Example of R227, with `LOGIC_RESETS_VF`. -/
theorem test_xorReg : after (onFull { takenQuirks with logicResetsVF := true } (regs [(0, 0xFF), (1, 0xF), (0xF, 3)])) 0x8013
    (fun t => (t.reg 0, t.reg 0xF)) = some (0xF0, 0) := by decide
/-- Example of R228. -/
theorem test_shr : after (onFull takenQuirks (regs [(0, 5)])) 0x8006 (fun t => (t.reg 0, t.reg 0xF)) = some (2, 1) := by decide
/-- R228 with `SHIFT_SOURCE = VY`. -/
theorem test_shr_vy : after (onFull { takenQuirks with shiftSource := .vy } (regs [(0, 5), (1, 0x0C)])) 0x8016
    (fun t => (t.reg 0, t.reg 0xF)) = some (6, 0) := by decide
/-- Example of R229. -/
theorem test_subn : after (onFull takenQuirks (regs [(0, 5), (1, 3)])) 0x8017 (fun t => (t.reg 0, t.reg 0xF)) =
    some (0xFE, 0) := by decide
/-- Example of R230. -/
theorem test_shl : after (onFull takenQuirks (regs [(0, 0x81)])) 0x800E (fun t => (t.reg 0, t.reg 0xF)) = some (2, 1) := by decide

/-! ### Index register and memory -/

/-- Vector M2. -/
theorem test_M2_ldI : after State.reset 0xAFFF (fun t => t.I) = some 0xFFF := by decide
/-- Vector M4. -/
theorem test_M4_ldF : after (regs [(0, 0xA)]) 0xF029 (fun t => t.I) = some 0x32 := by decide
/-- Vector M7. -/
theorem test_M7_ldF_past_the_font : after (regs [(0, 0xFF)]) 0xF029 (fun t => t.I) = some 0x4FB := by decide
/-- Vector M8, the example E7 of the source. -/
theorem test_M8_ldB : after ((regs [(0, 0xEA)]).setI 0x300) 0xF033
    (fun t => (t.byteAt 0x300, t.byteAt 0x301, t.byteAt 0x302, t.byteAt 0x303)) = some (2, 3, 4, 0) := by decide
/-- Vector M16. -/
theorem test_M16_ldB_past_the_memory : faultOf (State.reset.setI 0xFFE) 0xF033 = some (.addressOutOfBounds 0x1000 .write) := by
  decide
/-- Vector M17, and the advance of `I` under `LOADSTORE_INC_I` (R235). -/
theorem test_M17_ldVxI : after ((State.reset.setBytes 0x300 [2, 3, 4, 5]).setI 0x300) 0xF265
      (fun t => (t.reg 0, t.reg 1, t.reg 2, t.reg 3, t.I)) = some (2, 3, 4, 0, 0x300) ∧
    after (onFull { takenQuirks with loadStoreIncI := true } (State.reset.setI 0x300)) 0xF265 (fun t => t.I) = some 0x303 := by
  decide
/-- Vector M20. -/
theorem test_M20_ldVxI_past_the_memory : faultOf (State.reset.setI 0xFF1) 0xFF65 = some (.addressOutOfBounds 0x1000 .read) := by
  decide
/-- Example of R234. -/
theorem test_addI : after (onFull takenQuirks ((regs [(0, 0x10)]).setI 0x300)) 0xF01E (fun t => t.I) = some 0x310 := by decide
/-- Example of R235. -/
theorem test_ldIVx : after (onFull takenQuirks ((regs [(0, 1), (1, 2), (2, 3), (3, 9)]).setI 0x300)) 0xF255
    (fun t => (t.byteAt 0x300, t.byteAt 0x301, t.byteAt 0x302, t.byteAt 0x303, t.I)) = some (1, 2, 3, 0, 0x300) := by decide

/-! ### Draw -/

/-- The pixels of vector D3: a row of eight at column 60. -/
def rowAt60 : State := ((regs [(0, 0x3C)]).setBytes 0x300 [0xFF]).setI 0x300

/-- Vector D3 under WRAP, CLIP and FLAT. -/
theorem test_D3_draw_under_each_edge :
    after rowAt60 0xD011 (fun t => [60, 63, 0, 3, 4, 64].map (Framebuffer.get t.fb)) = some [true, true, true, true, false, false] ∧
    after (withEdge .clip rowAt60) 0xD011 (fun t => [60, 63, 0, 3, 64].map (Framebuffer.get t.fb)) =
      some [true, true, false, false, false] ∧
    after (withEdge .flat rowAt60) 0xD011 (fun t => [60, 63, 0, 64, 67, 68].map (Framebuffer.get t.fb)) =
      some [true, true, false, true, true, false] := by decide
/-- Vectors D2 (a lit pixel), D4 under FLAT and D8. -/
theorem test_draw_collides_and_faults :
    after (lit 0 ((State.reset.setBytes 0x300 [0x80]).setI 0x300)) 0xD011
      (fun t => (Framebuffer.get t.fb 0, t.reg 0xF, t.needsRedraw)) = some (false, 1, true) ∧
    faultOf (withEdge .flat (((regs [(1, 0x1F)]).setBytes 0x300 [0x80, 0x80]).setI 0x300)) 0xD012 =
      some (.framebufferIndexOutOfRange 2048) ∧
    faultOf (State.reset.setI 0xFFF) 0xD012 = some (.addressOutOfBounds 0x1000 .read) := by decide
/-- R223. -/
theorem test_cls : after (onFull takenQuirks (lit 2047 State.reset)) 0x00E0 (fun t => (Framebuffer.get t.fb 2047, t.needsRedraw)) =
    some (false, true) := by decide

/-! ### Keys and timers -/

/-- Vector T1. -/
theorem test_T1_sknp : after (atPc 0x300 (regs [(2, 5)])) 0xE2A1 (fun t => t.pc) = some 0x304 := by decide
/-- Vector T3. -/
theorem test_T3_sknp_of_no_key : faultOf (regs [(2, 0x10)]) 0xE2A1 = some (.keyIndexOutOfRange 0x10) := by decide
/-- Example of R232. -/
theorem test_skp : after (onFull takenQuirks (press 5 (regs [(2, 5)]))) 0xE29E (fun t => t.pc) = some 0x204 := by decide
/-- Vector T4. -/
theorem test_T4_ldVxDt : after { State.reset with DT := 0x3C } 0xF307 (fun t => (t.reg 3, t.DT)) = some (0x3C, 0x3B) := by decide
/-- Vector T5. -/
theorem test_T5_ldDtVx : after (regs [(0, 5)]) 0xF015 (fun t => t.DT) = some 4 := by decide
/-- Vector T8. -/
theorem test_T8_ldStVx : after (regs [(1, 2)]) 0xF118 (fun t => t.ST) = some 1 := by decide
/-- Example of R233. -/
theorem test_ldVxK : after (onFull takenQuirks (press 9 (press 3 State.reset))) 0xF40A (fun t => (t.reg 4, t.pc)) =
    some (3, 0x202) := by decide
/-- R233 with no key pressed: the timers still tick. -/
theorem test_ldVxK_waits : after (onFull takenQuirks { State.reset with DT := 2 }) 0xF40A (fun t => (t.pc, t.DT)) =
    some (0x200, 1) := by decide

/-! ### The driver -/

/-- Vector L7: a load does not clear a fault. -/
theorem test_L7_load_into_a_faulted_machine : ((driverLoad [0x60, 1] 0x200 (State.reset.enterFaulted (.unknownOpcode 0))).1.byteAt 0x201,
    (driverLoad [0x60, 1] 0x200 (State.reset.enterFaulted (.unknownOpcode 0))).1.status) = (1, .faulted (.unknownOpcode 0)) := by
  decide
/-- Vectors L3 and L4. -/
theorem test_L4_load_bounds : (driverLoad [] 0x1000 State.reset).2 = .ok ∧ (driverLoad [] 0x1001 State.reset).2 = .programTooLarge := by
  decide
/-- Vector L6. -/
theorem test_L6_reset_of_a_faulted_machine : driverReset (State.reset.enterFaulted (.unknownOpcode 0)) = State.reset := by decide
/-- The next step after placing a word of the table runs it, in either profile. -/
theorem test_withFetchWord : isNext (step (State.reset.withFetchWord 16 0x6005)) = true ∧
    isNext (step (State.reset.withFetchWord 16 0x00E0)) = true ∧
    (State.reset.withFetchWord 16 0x6005).config = hardwareConfig := by decide

/-! ### Witnesses: for every statement with hypotheses, states and operands that meet them -/

theorem witness_DecodeInvertsEncode : (Instr.ldIVx 0xF).wellFormed (.full takenQuirks) = true ∧
    (Instr.jp 0xFFF).wellFormed .reference = true := by decide

theorem witness_DecodedWordIsTheInstructionsWord : decode .reference 0x1FFF = .ok (.jp 0xFFF) ∧
    decode (.full takenQuirks) 0xFF55 = .ok (.ldIVx 0xF) := by decide

theorem witness_WordDecodesIffItSelectsARow : (∃ i, decode .reference 0x00EE = .ok i) ∧
    (∃ r ∈ opcodeRows .reference, (0x00EE : Word) &&& r.mask = r.bits) :=
  ⟨⟨.ret, by decide⟩, ⟨⟨0x00EE, 0xFFFF⟩, by decide, by decide⟩⟩

theorem witness_WordSelectsAtMostOneRow : (⟨0x8005, 0xF00F⟩ : OpcodeRow) ∈ opcodeRows .reference ∧
    (0x8FF5 : Word) &&& 0xF00F = 0x8005 := by decide

theorem witness_FullProfileExtendsTheReferenceProfile : decode .reference 0x00EE = .ok .ret ∧
    fieldF 0x00E1 = 0x0 ∧ (0x00E1 : Word) ≠ 0x00E0 ∧ (0x00E1 : Word) ≠ 0x00EE := by decide

/-- The last fetchable word holds `6001`, and a RET on an empty stack and a refused `Fx0A` stand at 0x200. -/
theorem witness_StepRunsTheDecodedInstruction :
    ((atPc 0xFFE State.reset).placeWord 0x6001).pc.toNat + 1 < memSize ∧
    ((atPc 0xFFE State.reset).placeWord 0x6001).fetch = .ok 0x6001 ∧ decode .reference 0x6001 = .ok (.ldImm 0 1) ∧
    isNext (exec (.ldImm 0 1) ((atPc 0xFFE State.reset).placeWord 0x6001)) = true ∧
    faultOf State.reset 0x00EE = some (.stackUnderflow 0x200) := by decide

/-- The one refusal: `Fx0A` on a FULL machine whose parameter `WAIT_FOR_RELEASE` is 1. -/
theorem witness_StepRefusal : exec (.ldVxK 0) (onFull { takenQuirks with waitForRelease := true } State.reset) =
    .refused .waitForReleaseNotGiven := rfl

theorem witness_StepRunsTheEncodedInstruction : (Instr.ldImm 0 1).wellFormed .reference = true ∧
    (((atPc 0xFFE State.reset).placeWord 0x6001).byteAt 0xFFE).toNat * 256 +
      (((atPc 0xFFE State.reset).placeWord 0x6001).byteAt 0xFFF).toNat = (encode (.ldImm 0 1)).toNat ∧
    ((atPc 0xFFE State.reset).placeWord 0x6001).status = .running ∧
    isNext (exec (.ldImm 0 1) ((atPc 0xFFE State.reset).placeWord 0x6001)) = true := by decide

theorem witness_FetchReadsABigEndianWordOrFaults : (atPc 0xFFE State.reset).pc.toNat + 1 < memSize ∧
    (atPc 0xFFF State.reset).pc.toNat + 1 ≥ memSize ∧ (atPc 0xFFF State.reset).status = .running := by decide

/-- A reference machine on `00E0`, and a FULL machine on `5xy1`. -/
theorem witness_UnmatchedWordFaultsWithTheWord :
    ((State.reset.placeWord 0x00E0).status = .running ∧ (State.reset.placeWord 0x00E0).fetch = .ok 0x00E0 ∧
      ∀ r ∈ opcodeRows (State.reset.placeWord 0x00E0).config.profile, (0x00E0 : Word) &&& r.mask ≠ r.bits) ∧
    ((onFull takenQuirks (State.reset.placeWord 0x5011)).status = .running ∧
      (onFull takenQuirks (State.reset.placeWord 0x5011)).fetch = .ok 0x5011 ∧
      ∀ r ∈ opcodeRows (onFull takenQuirks (State.reset.placeWord 0x5011)).config.profile,
        (0x5011 : Word) &&& r.mask ≠ r.bits) := by decide

theorem witness_FaultedMachineAnswersItsFaultUntilReset :
    (State.reset.enterFaulted (.stackOverflow 0x200)).status = .faulted (.stackOverflow 0x200) ∧
    DriverOp.step ≠ .reset := by decide

theorem witness_FaultingStepIsUndone : State.reset.status = .running ∧ step State.reset = .fault (.unknownOpcode 0x0000) :=
  ⟨by decide, rfl⟩

theorem witness_EveryStepTicksBothTimersOnce : ∃ s t, step s = .next t :=
  ⟨State.reset.placeWord 0x6001, exists_of_isNext (by decide)⟩

/-- An instruction that writes no timer, and the two that do. -/
theorem witness_TimersCountDownFromTheLastWrite :
    (State.reset.placeWord 0x6001).fetch = .ok 0x6001 ∧ decode .reference 0x6001 = .ok (.ldImm 0 1) ∧
    isNext (step (State.reset.placeWord 0x6001)) = true ∧
    (State.reset.placeWord 0xF015).fetch = .ok 0xF015 ∧ decode .reference 0xF015 = .ok (.ldDtVx 0) ∧
    isNext (step (State.reset.placeWord 0xF015)) = true ∧
    (State.reset.placeWord 0xF018).fetch = .ok 0xF018 ∧ decode .reference 0xF018 = .ok (.ldStVx 0) ∧
    isNext (step (State.reset.placeWord 0xF018)) = true := by decide

theorem witness_CallPushesItsOwnAddress : ({ State.reset with sp := 15 } : State).sp.val < 16 ∧
    (fullStack 0 State.reset).sp.val = 16 := by decide

theorem witness_RetResumesAfterTheAddressPopped : (15 : Fin 16).val + 1 = (fullStack 0x300 State.reset).sp.val ∧
    State.reset.sp.val = 0 := by decide

theorem witness_CallThenRetResumesAfterTheCallSite :
    ((atPc 0xFFC (State.reset.setBytes 0xFFC [0x2F, 0xFE, 0x00, 0xEE]))).status = .running ∧
    ((atPc 0xFFC (State.reset.setBytes 0xFFC [0x2F, 0xFE, 0x00, 0xEE]))).sp.val < 16 ∧
    0xFFC + 1 < memSize ∧ (0xFFE : Address).toNat + 1 < memSize ∧
    wordOfBytes ((State.reset.setBytes 0xFFC [0x2F, 0xFE, 0x00, 0xEE]).byteAt 0xFFC)
      ((State.reset.setBytes 0xFFC [0x2F, 0xFE, 0x00, 0xEE]).byteAt 0xFFD) = encode (.call 0xFFE) ∧
    wordOfBytes ((State.reset.setBytes 0xFFC [0x2F, 0xFE, 0x00, 0xEE]).byteAt 0xFFE)
      ((State.reset.setBytes 0xFFC [0x2F, 0xFE, 0x00, 0xEE]).byteAt 0xFFF) = encode .ret := by decide

theorem witness_OffsetJumpAddsTheSelectedRegister : State.reset.quirks.jumpOffsetReg = .v0 ∧
    (onFull { takenQuirks with jumpOffsetReg := .vx } State.reset).quirks.jumpOffsetReg = .vx ∧
    (0xF : Nibble).toNat = (0xFFF : Address).toNat / 256 := by decide

theorem witness_ShiftsWriteTheBitShiftedOut : ((regs [(0, 0x81)]).reg 0 = if (regs [(0, 0x81)]).quirks.shiftSource = .vy then
      (regs [(0, 0x81)]).reg 1 else (regs [(0, 0x81)]).reg 0) ∧
    (onFull { takenQuirks with shiftSource := .vy } State.reset).quirks.shiftSource = .vy := by decide

theorem witness_DecimalStoreWritesThreeDigits : (State.reset.setI 0xFFD).I.toNat + 2 < memSize ∧
    (State.reset.setI 0xFFE).I.toNat + 2 ≥ memSize := by decide

theorem witness_RegisterLoadReadsUpFromTheIndex : (State.reset.setI 0xFF0).I.toNat + (0xF : Nibble).toNat < memSize ∧
    (State.reset.setI 0xFF1).I.toNat + (0xF : Nibble).toNat ≥ memSize := by decide

theorem witness_RegisterStoreWritesUpFromTheIndex : (State.reset.setI 0xFFF).I.toNat + (0 : Nibble).toNat < memSize ∧
    (State.reset.setI 0xFFF).I.toNat + (1 : Nibble).toNat ≥ memSize ∧ (0xF : Nibble).toNat ≤ (0xF : Nibble).toNat := by decide

theorem witness_StoredRegistersLoadBack : ∃ t u : State, exec (.ldIVx 0xF) (State.reset.setI 0xFF0) = .next t ∧
    u.memory = t.memory ∧ u.config = t.config ∧ u.I = (State.reset.setI 0xFF0).I := by
  obtain ⟨t, ht⟩ := exists_of_isNext (o := exec (.ldIVx 0xF) (State.reset.setI 0xFF0)) (by decide)
  exact ⟨t, { t with I := 0xFF0 }, ht, rfl, rfl, rfl⟩

theorem witness_MemReadGivesTheLastWrite : 0xFFF < memSize ∧ 0x1000 ≥ memSize := by decide

theorem witness_PixelIndexFollowsDrawEdge : (63 < 64 ∧ 31 < 32) ∧ ¬(64 < 64 ∧ 31 < 32) ∧ 31 * 64 + 63 < 2048 ∧
    31 * 64 + 64 ≥ 2048 := by decide

/-- Readable rows up to the last byte of memory; a covered lit pixel and a covered unlit one; no pixel past the screen. -/
theorem witness_DrawTogglesExactlyTheCoveredPixels : RowsReadable 0xF (State.reset.setI 0xFF1) ∧
    (∀ r b k : Nat, r < (0xF : Nibble).toNat → b < 8 → spriteBit (State.reset.setI 0xFF1) r b →
      spriteTarget 0 1 (State.reset.setI 0xFF1) r b ≠ .outOfRange k) ∧
    SpriteCovers 0 1 1 rowAt60 60 ∧ rowAt60.fb.get 60 = false ∧ (lit 60 rowAt60).fb.get 60 = true :=
  ⟨Or.inr (by decide), fun r b k _ _ _ => pixelIndex_ne_outOfRange (by decide) _ _ k,
    ⟨0, 0, by decide, by decide, by unfold spriteBit; decide, by decide⟩, by decide, by decide⟩

theorem witness_DrawOnlyNeedsItsRowsUnderWrapAndClip : State.reset.config.drawEdge ≠ .flat ∧
    RowsReadable 0xF (State.reset.setI 0xFF1) ∧ ¬RowsReadable 0xF (State.reset.setI 0xFF2) :=
  ⟨by decide, Or.inr (by decide), by unfold RowsReadable; decide⟩

/-- Row 1 of a sprite at row 31: index 2048, and no bit of row 0 is past the screen. -/
theorem witness_FlatDrawFaultsAtTheFirstBitPastTheScreen : ∃ s : State, s.config.drawEdge = .flat ∧ RowsReadable 2 s ∧
    spriteBit s 1 0 ∧ ((s.reg 1).toNat % 32 + 1) * 64 + ((s.reg 0).toNat % 64 + 0) ≥ 2048 ∧
    (∀ r' b', r' < 1 ∨ (r' = 1 ∧ b' < 0) → b' < 8 → spriteBit s r' b' →
      ((s.reg 1).toNat % 32 + r') * 64 + ((s.reg 0).toNat % 64 + b') < 2048) := by
  refine ⟨withEdge .flat (((regs [(1, 0x1F)]).setBytes 0x300 [0x80, 0x80]).setI 0x300), by decide, Or.inr (by decide),
    by unfold spriteBit; decide, by decide, fun r' b' h hb _ => ?_⟩
  have h0 : r' = 0 := by omega
  have e1 : ((withEdge .flat (((regs [(1, 0x1F)]).setBytes 0x300 [0x80, 0x80]).setI 0x300)).reg 1).toNat % 32 = 31 := by decide
  have e2 : ((withEdge .flat (((regs [(1, 0x1F)]).setBytes 0x300 [0x80, 0x80]).setI 0x300)).reg 0).toNat % 64 = 0 := by decide
  rw [e1, e2, h0]
  omega

theorem witness_DrawingTwiceRestoresTheFramebuffer : ∃ t u, exec (.drw 0 1 1) rowAt60 = .next t ∧ exec (.drw 0 1 1) t = .next u ∧
    SpriteCovers 0 1 1 rowAt60 60 ∧ rowAt60.fb.get 60 = false := by
  have h : isNext (exec (.drw 0 1 1) rowAt60) = true := by decide
  have h2 : (match exec (.drw 0 1 1) rowAt60 with
    | .next t => isNext (exec (.drw 0 1 1) t)
    | _ => false) = true := by decide
  obtain ⟨t, ht⟩ := exists_of_isNext h
  rw [ht] at h2
  obtain ⟨u, hu⟩ := exists_of_isNext h2
  exact ⟨t, u, ht, hu, ⟨0, 0, by decide, by decide, by unfold spriteBit; decide, by decide⟩, by decide⟩

/-- The last key, and the first number that names no key. -/
theorem witness_KeySkipTestsTheKeyOrFaults : ((regs [(2, 0xF)]).reg 2).toNat = (15 : Fin 16).val ∧
    ((regs [(2, 0x10)]).reg 2).toNat > 15 ∧ (press 15 State.reset).key[(15 : Fin 16)] = true := by decide

theorem witness_KeyPressedSkipTestsTheKeyOrFaults : ((regs [(2, 0)]).reg 2).toNat = (0 : Fin 16).val ∧
    ((regs [(2, 0xFF)]).reg 2).toNat > 15 ∧ (press 0 State.reset).key[(0 : Fin 16)] = true := by decide

theorem witness_WaitForKeyTakesTheLeastPressedKey : State.reset.quirks.waitForRelease = false ∧
    (press 15 State.reset).quirks.waitForRelease = false ∧ (press 15 State.reset).key[(15 : Fin 16)] = true ∧
    (∀ j : Fin 16, j < 15 → (press 15 State.reset).key[j] = false) ∧ (∀ k : Fin 16, State.reset.key[k] = false) ∧
    (onFull { takenQuirks with waitForRelease := true } State.reset).quirks.waitForRelease = true := by decide

theorem witness_EveryInstructionKeepsItsFrame : (∃ t, exec (.addReg 0 1) State.reset = .next t) ∧
    mayChangeReg (.addReg 0 1) 1 = false :=
  ⟨exists_of_isNext (by decide), by decide⟩

theorem witness_OnlyTheTwoStoresWriteMemory :
    (∃ t, exec (.ldB 0) ((regs [(0, 0xEA)]).setI 0xFFD) = .next t ∧ t.byteAt 0xFFF ≠ ((regs [(0, 0xEA)]).setI 0xFFD).byteAt 0xFFF) ∧
    (∃ t, exec (.ldIVx 1) ((regs [(1, 7)]).setI 0xFFE) = .next t ∧ t.byteAt 0xFFF ≠ ((regs [(1, 7)]).setI 0xFFE).byteAt 0xFFF) :=
  ⟨⟨_, rfl, by decide⟩, ⟨_, rfl, by decide⟩⟩

theorem witness_VfIsWrittenOnlyAsFlagOrDestination : (Instr.addReg 0 1).fullOnly = false ∧
    ∃ t, exec (.addReg 0 1) (regs [(0, 0xFF), (1, 1)]) = .next t ∧ t.reg 0xF ≠ (regs [(0, 0xFF), (1, 1)]).reg 0xF :=
  ⟨by decide, _, rfl, by decide⟩

theorem witness_EveryInstructionRaisesOnlyItsOwnFaults : exec .ret State.reset = .fault (.stackUnderflow 0x200) ∧
    exec (.ldB 0) (State.reset.setI 0xFFE) = .fault (.addressOutOfBounds 0x1000 .write) :=
  ⟨rfl, rfl⟩

theorem witness_StepRefusesOnlyTheReleaseVariantOfWaitForKey :
    step ((onFull { takenQuirks with waitForRelease := true } State.reset).placeWord 0xF00A) = .refused .waitForReleaseNotGiven :=
  rfl

theorem witness_StepsLeaveKeysStatusAndParametersAlone : ∃ t, step ((press 3 State.reset).placeWord 0x1208) = .next t :=
  exists_of_isNext (by decide)

theorem witness_EveryStepKeepsTheInvariant : ((State.reset.setI 0x300).placeWord 0xF033).Inv ∧
    ∃ t, step ((State.reset.setI 0x300).placeWord 0xF033) = .next t :=
  ⟨by decide, exists_of_isNext (by decide)⟩

theorem witness_EveryDriverSessionKeepsTheInvariant : State.reset.Inv ∧ (fullStack 0xFFE State.reset).Inv ∧
    (atPc 0x1002 State.reset).Inv := by decide

/-- A faulted machine, the last font byte and the first byte above the font. -/
theorem witness_ResetSetsEveryElement : ∃ s t : State, t = driverReset s ∧ s.status = .faulted (.unknownOpcode 0) ∧
    5 * (0xF : Fin 16).val + (4 : Fin 5).val = 0x4F ∧ 0x50 ≤ 0x50 :=
  ⟨State.reset.enterFaulted (.unknownOpcode 0), _, rfl, rfl, by decide, by decide⟩

theorem witness_LoadCopiesTheImageOrRejectsIt : 0xFFF + [(0xAA : Byte)].length ≤ memSize ∧
    0x1000 + [(0xAA : Byte)].length > memSize := by decide

end Sys2Proof.Tests
end

section
/-! SUPPORT. What an instruction that answers a next state has done, said once for each: the answers of the instructions
that can stop, the frame of every instruction, and the registers it keeps. -/

namespace Sys2Proof.Machine

/-! ### Frames, built up one operation at a time

Each rule says that one more operation keeps a frame that lists the parts it writes, so that the frame of an instruction
is written down in the order of its meaning. -/

section
variable {ps : List Part} {s t u : State}

theorem OnlyTouches.refl : OnlyTouches ps s s := fun p _ => same_refl s p

/-- One more operation, which changes no part but `q`, keeps a frame that lists `q`. -/
theorem OnlyTouches.extend {q : Part} (h : OnlyTouches ps s t) (hq : q ∈ ps) (hu : ∀ {p : Part}, p ≠ q → p.same t u) :
    OnlyTouches ps s u :=
  fun p hp => Part.same_trans (h p hp) (hu fun e => hp (e ▸ hq))

theorem OnlyTouches.advance (h : OnlyTouches ps s t) (hq : .pc ∈ ps := by simp [writtenParts]) :
    OnlyTouches ps s t.advance := h.extend hq (advance_same t)

theorem OnlyTouches.skipIf {c : Bool} (h : OnlyTouches ps s t) (hq : .pc ∈ ps := by simp [writtenParts]) :
    OnlyTouches ps s (t.skipIf c) := h.extend hq (skipIf_same t c)

theorem OnlyTouches.jumpTo {a : Word} (h : OnlyTouches ps s t) (hq : .pc ∈ ps := by simp [writtenParts]) :
    OnlyTouches ps s (t.jumpTo a) := h.extend hq (jumpTo_same t a)

theorem OnlyTouches.setReg {x : Nibble} {v : Byte} (h : OnlyTouches ps s t) (hq : .V ∈ ps := by simp [writtenParts]) :
    OnlyTouches ps s (t.setReg x v) := h.extend hq (setReg_same t x v)

theorem OnlyTouches.setFlag {v : Byte} (h : OnlyTouches ps s t) (hq : .V ∈ ps := by simp [writtenParts]) :
    OnlyTouches ps s (t.setFlag v) := h.extend hq (setFlag_same t v)

theorem OnlyTouches.logicFlag (h : OnlyTouches ps s t) (hq : .V ∈ ps := by simp [writtenParts]) :
    OnlyTouches ps s t.logicFlag := h.extend hq (logicFlag_same t)

theorem OnlyTouches.setRegsFrom {k : Nat} {bs : List Byte} (h : OnlyTouches ps s t)
    (hq : .V ∈ ps := by simp [writtenParts]) : OnlyTouches ps s (t.setRegsFrom k bs) :=
  h.extend hq (setRegsFrom_same t k bs)

theorem OnlyTouches.setI {v : Word} (h : OnlyTouches ps s t) (hq : .I ∈ ps := by simp [writtenParts]) :
    OnlyTouches ps s (t.setI v) := h.extend hq (setI_same t v)

theorem OnlyTouches.advanceIndex {x : Nibble} (h : OnlyTouches ps s t) (hq : .I ∈ ps := by simp [writtenParts]) :
    OnlyTouches ps s (t.advanceIndex x) := h.extend hq (advanceIndex_same t x)

theorem OnlyTouches.setBytes {a : Nat} {bs : List Byte} (h : OnlyTouches ps s t)
    (hq : .memory ∈ ps := by simp [writtenParts]) : OnlyTouches ps s (t.setBytes a bs) :=
  h.extend hq (setBytes_same t a bs)

theorem OnlyTouches.setCanvas {c : Canvas} (h : OnlyTouches ps s t)
    (hq : .V ∈ ps ∧ .fb ∈ ps ∧ .needsRedraw ∈ ps := by simp [writtenParts]) : OnlyTouches ps s (t.setCanvas c) :=
  fun p hp => Part.same_trans (h p hp)
    (setCanvas_same t c ⟨fun e => hp (e ▸ hq.1), fun e => hp (e ▸ hq.2.1), fun e => hp (e ▸ hq.2.2)⟩)

theorem OnlyTouches.setDT {v : Byte} (h : OnlyTouches ps s t) (hq : .DT ∈ ps := by simp [writtenParts]) :
    OnlyTouches ps s { t with DT := v } :=
  h.extend hq fun {p} hp => by cases p <;> simp_all [Part.same, State.byteAt, State.reg]

theorem OnlyTouches.setST {v : Byte} (h : OnlyTouches ps s t) (hq : .ST ∈ ps := by simp [writtenParts]) :
    OnlyTouches ps s { t with ST := v } :=
  h.extend hq fun {p} hp => by cases p <;> simp_all [Part.same, State.byteAt, State.reg]

theorem OnlyTouches.setDraws {v : Nat} (h : OnlyTouches ps s t) (hq : .draws ∈ ps := by simp [writtenParts]) :
    OnlyTouches ps s { t with draws := v } :=
  h.extend hq fun {p} hp => by cases p <;> simp_all [Part.same, State.byteAt, State.reg]

theorem OnlyTouches.setSp {v : Fin 17} (h : OnlyTouches ps s t) (hq : .sp ∈ ps := by simp [writtenParts]) :
    OnlyTouches ps s { t with sp := v } :=
  h.extend hq fun {p} hp => by cases p <;> simp_all [Part.same, State.byteAt, State.reg]

/-- The two parts that a call writes. -/
theorem OnlyTouches.setFrame {v : Vector Word 16} {n : Fin 17} (h : OnlyTouches ps s t)
    (hq : .stack ∈ ps ∧ .sp ∈ ps := by simp [writtenParts]) : OnlyTouches ps s { t with stack := v, sp := n } :=
  fun p hp => Part.same_trans (h p hp) (by cases p <;> simp_all [Part.same, State.byteAt, State.reg])

/-- The two parts that a cleared screen writes. -/
theorem OnlyTouches.setScreen {v : Framebuffer} {b : Bool} (h : OnlyTouches ps s t)
    (hq : .fb ∈ ps ∧ .needsRedraw ∈ ps := by simp [writtenParts]) : OnlyTouches ps s { t with fb := v, needsRedraw := b } :=
  fun p hp => Part.same_trans (h p hp) (by cases p <;> simp_all [Part.same, State.byteAt, State.reg])

theorem OnlyTouches.setKeys {v : Vector Bool 16} (h : OnlyTouches ps s t) (hq : .key ∈ ps) :
    OnlyTouches ps s { t with key := v } :=
  h.extend hq fun {p} hp => by cases p <;> simp_all [Part.same, State.byteAt, State.reg]

theorem OnlyTouches.setRedraw {v : Bool} (h : OnlyTouches ps s t) (hq : .needsRedraw ∈ ps) :
    OnlyTouches ps s { t with needsRedraw := v } :=
  h.extend hq fun {p} hp => by cases p <;> simp_all [Part.same, State.byteAt, State.reg]

end

/-! ### Answers of the instructions that can stop

Every other instruction answers one next state outright, which `cases` reads off its meaning. -/

section
variable {s t : State}

theorem exec_ret_next (h : exec .ret s = .next t) : ∃ k : Fin 16, k.val + 1 = s.sp.val ∧
    t = ({ s with sp := ⟨k.val, by omega⟩ } : State).jumpTo (s.stack[k] + 2) := by
  simp only [exec, execRet] at h
  split at h
  · rename_i a u hp
    obtain ⟨k, hk, rfl, rfl⟩ := s.pop_cases hp
    cases h
    exact ⟨k, hk, rfl⟩
  · cases h

theorem exec_call_next {nnn : Address} (h : exec (.call nnn) s = .next t) : ∃ hlt : s.sp.val < 16,
    t = ({ s with stack := s.stack.set s.sp.val s.pc hlt, sp := ⟨s.sp.val + 1, Nat.succ_lt_succ hlt⟩ } : State).jumpTo
      (nnn.setWidth 16) := by
  simp only [exec, execCall] at h
  split at h
  · rename_i u hp
    obtain ⟨hlt, rfl⟩ := s.push_cases hp
    cases h
    exact ⟨hlt, rfl⟩
  · cases h

theorem exec_sknp_next {x : Nibble} (h : exec (.sknp x) s = .next t) :
    ∃ pressed, s.keyPressed (s.reg x) = some pressed ∧ t = s.skipIf (!pressed) := by
  simp only [exec, execSknp] at h
  split at h
  · rename_i pressed hk
    cases h
    exact ⟨pressed, hk, rfl⟩
  · cases h

theorem exec_skp_next {x : Nibble} (h : exec (.skp x) s = .next t) :
    ∃ pressed, s.keyPressed (s.reg x) = some pressed ∧ t = s.skipIf pressed := by
  simp only [exec, execSkp] at h
  split at h
  · rename_i pressed hk
    cases h
    exact ⟨pressed, hk, rfl⟩
  · cases h

theorem exec_ldVxK_next {x : Nibble} (h : exec (.ldVxK x) s = .next t) : s.quirks.waitForRelease = false ∧
    ((∃ k, s.leastPressed = some k ∧ t = (s.setReg x (BitVec.ofNat 8 k.val)).advance) ∨
      (s.leastPressed = none ∧ t = s)) := by
  simp only [exec, execLdVxK] at h
  split at h
  · cases h
  · rename_i hq
    refine ⟨by simpa using hq, ?_⟩
    split at h
    · rename_i k hk
      cases h
      exact .inl ⟨k, hk, rfl⟩
    · rename_i hk
      cases h
      exact .inr ⟨hk, rfl⟩

theorem exec_drw_next {x y n : Nibble} (h : exec (.drw x y n) s = .next t) :
    ∃ c, RowsReadable n s ∧ (Canvas.mk s.fb false).plotAll s.config.drawEdge (drawPixels s x y n) = .ok c ∧
      t = (s.setCanvas c).advance := by
  simp only [exec, execDrw] at h
  split at h
  · cases h
  · rename_i rows hrows
    obtain ⟨rfl, hin⟩ := readBytes_ok hrows
    split at h
    · cases h
    · rename_i c hc
      cases h
      exact ⟨c, hin, hc, rfl⟩

theorem exec_ldB_next {x : Nibble} (h : exec (.ldB x) s = .next t) : s.I.toNat + 3 ≤ memSize ∧
    t = (s.setBytes s.I.toNat [hundreds (s.reg x), tens (s.reg x), ones (s.reg x)]).advance := by
  simp only [exec, execLdB] at h
  split at h
  · rename_i u hu
    obtain ⟨rfl, hin⟩ := writeBytes_ok hu
    cases h
    exact ⟨by simpa using hin, rfl⟩
  · cases h

theorem exec_ldVxI_next {x : Nibble} (h : exec (.ldVxI x) s = .next t) : s.I.toNat + regCount x ≤ memSize ∧
    t = ((s.setRegsFrom 0 ((List.range' s.I.toNat (regCount x)).map s.byteAt)).advanceIndex x).advance := by
  simp only [exec, execLdVxI] at h
  split at h
  · rename_i bs hbs
    obtain ⟨rfl, hin⟩ := readBytes_ok hbs
    cases h
    exact ⟨by simpa [regCount] using hin, rfl⟩
  · cases h

theorem exec_ldIVx_next {x : Nibble} (h : exec (.ldIVx x) s = .next t) : s.I.toNat + regCount x ≤ memSize ∧
    t = ((s.setBytes s.I.toNat (s.regsUpTo x)).advanceIndex x).advance := by
  simp only [exec, execLdIVx] at h
  split at h
  · rename_i u hu
    obtain ⟨rfl, hin⟩ := writeBytes_ok hu
    have hne : s.regsUpTo x ≠ [] := List.ne_nil_of_length_eq_add_one (s.length_regsUpTo x)
    cases h
    exact ⟨by simpa [hne, regCount] using hin, rfl⟩
  · cases h

end

/-! ### What each instruction leaves unchanged -/

section
variable {i : Instr} {s t : State}

/-- The frame of every instruction, each built up in the order of its meaning. -/
theorem exec_onlyTouches (h : exec i s = .next t) : OnlyTouches (writtenParts i) s t := by
  cases i with
  | ret =>
    obtain ⟨k, -, rfl⟩ := exec_ret_next h
    exact OnlyTouches.refl.setSp.jumpTo
  | call nnn =>
    obtain ⟨hlt, rfl⟩ := exec_call_next h
    exact OnlyTouches.refl.setFrame.jumpTo
  | jp _ | jpV0 _ => cases h; exact OnlyTouches.refl.jumpTo
  | seImm _ _ | sneImm _ _ | seReg _ _ | sneReg _ _ => cases h; exact OnlyTouches.refl.skipIf
  | sknp x =>
    obtain ⟨pressed, -, rfl⟩ := exec_sknp_next h
    exact OnlyTouches.refl.skipIf
  | skp x =>
    obtain ⟨pressed, -, rfl⟩ := exec_skp_next h
    exact OnlyTouches.refl.skipIf
  | ldImm _ _ | addImm _ _ | ldReg _ _ | andReg _ _ | ldVxDt _ => cases h; exact OnlyTouches.refl.setReg.advance
  | addReg _ _ | subReg _ _ | subn _ _ | shr _ _ | shl _ _ => cases h; exact OnlyTouches.refl.setReg.setFlag.advance
  | orReg _ _ | xorReg _ _ => cases h; exact OnlyTouches.refl.setReg.logicFlag.advance
  | rnd _ _ => cases h; exact OnlyTouches.refl.setDraws.setReg.advance
  | ldVxK x =>
    obtain ⟨-, ⟨k, -, rfl⟩ | ⟨-, rfl⟩⟩ := exec_ldVxK_next h
    · exact OnlyTouches.refl.setReg.advance
    · exact OnlyTouches.refl
  | ldI _ | ldF _ | addI _ => cases h; exact OnlyTouches.refl.setI.advance
  | ldVxI x =>
    obtain ⟨-, rfl⟩ := exec_ldVxI_next h
    exact OnlyTouches.refl.setRegsFrom.advanceIndex.advance
  | ldB x =>
    obtain ⟨-, rfl⟩ := exec_ldB_next h
    exact OnlyTouches.refl.setBytes.advance
  | ldIVx x =>
    obtain ⟨-, rfl⟩ := exec_ldIVx_next h
    exact OnlyTouches.refl.setBytes.advanceIndex.advance
  | drw x y n =>
    obtain ⟨c, -, -, rfl⟩ := exec_drw_next h
    exact OnlyTouches.refl.setCanvas.advance
  | cls => cases h; exact OnlyTouches.refl.setScreen.advance
  | ldDtVx _ => cases h; exact OnlyTouches.refl.setDT.advance
  | ldStVx _ => cases h; exact OnlyTouches.refl.setST.advance

/-- A register outside an instruction's list holds what it held (spec/10_state.md R23, R24). -/
theorem exec_reg_of_mayChangeReg_eq_false {r : Nibble} (h : exec i s = .next t) (hr : mayChangeReg i r = false) :
    t.reg r = s.reg r := by
  cases i with
  | ldImm x _ | addImm x _ | ldReg x _ | andReg x _ | rnd x _ | ldVxDt x =>
    have hx : r ≠ x := by simpa [mayChangeReg] using hr
    cases h
    exact (State.reg_setReg _ x r _).trans (if_neg hx)
  | addReg x _ | subReg x _ | subn x _ | shr x _ | shl x _ =>
    obtain ⟨hx, hf⟩ : r ≠ x ∧ r ≠ vf := by simpa [mayChangeReg] using hr
    cases h
    rw [State.reg_advance, State.reg_setFlag, if_neg hf, State.reg_setReg, if_neg hx]
  | orReg x _ | xorReg x _ =>
    obtain ⟨hx, hf⟩ : r ≠ x ∧ r ≠ vf := by simpa [mayChangeReg] using hr
    cases h
    rw [State.reg_advance, State.reg_logicFlag, if_neg (fun e => hf e.1), State.reg_setReg, if_neg hx]
  | ldVxK x =>
    have hx : r ≠ x := by simpa [mayChangeReg] using hr
    obtain ⟨-, ⟨k, -, rfl⟩ | ⟨-, rfl⟩⟩ := exec_ldVxK_next h
    · simp [State.reg_setReg, hx]
    · rfl
  | drw x y n =>
    have hf : r ≠ vf := by simpa [mayChangeReg] using hr
    obtain ⟨c, -, -, rfl⟩ := exec_drw_next h
    exact (State.reg_setFlag _ r _).trans (if_neg hf)
  | ldVxI x =>
    have hx : x.toNat < r.toNat := by simpa [mayChangeReg] using hr
    obtain ⟨-, rfl⟩ := exec_ldVxI_next h
    have hout : ¬ r.toNat < regCount x := by unfold regCount; omega
    simp [State.advanceIndex_eq, State.reg_setRegsFrom, hout]
  | _ => exact exec_onlyTouches h .V (by simp [writtenParts]) r

end

end Sys2Proof.Machine
end

section
/-! SUPPORT. The invariant, clause by clause, across an instruction and a driver operation. -/

namespace Sys2Proof.Machine

/-! ### Memory and program counter after the operations on other parts -/

section
variable (s : State)

@[simp] theorem State.setBytes_pc (a : Nat) (bs : List Byte) : (s.setBytes a bs).pc = s.pc :=
  setBytes_same s a bs (p := .pc) (by decide)

@[simp] theorem State.setRegsFrom_pc (k : Nat) (bs : List Byte) : (s.setRegsFrom k bs).pc = s.pc :=
  setRegsFrom_same s k bs (p := .pc) (by decide)

@[simp] theorem State.setRegsFrom_memory (k : Nat) (bs : List Byte) : (s.setRegsFrom k bs).memory = s.memory := by
  rw [State.setRegsFrom_eq]

@[simp] theorem State.setRegsFrom_I (k : Nat) (bs : List Byte) : (s.setRegsFrom k bs).I = s.I :=
  setRegsFrom_same s k bs (p := .I) (by decide)

@[simp] theorem State.setRegsFrom_config (k : Nat) (bs : List Byte) : (s.setRegsFrom k bs).config = s.config :=
  setRegsFrom_same s k bs (p := .config) (by decide)

@[simp] theorem State.logicFlag_pc : s.logicFlag.pc = s.pc := logicFlag_same s (p := .pc) (by decide)

@[simp] theorem State.logicFlag_memory : s.logicFlag.memory = s.memory := by rw [State.logicFlag_eq]

@[simp] theorem State.advanceIndex_pc (x : Nibble) : (s.advanceIndex x).pc = s.pc :=
  advanceIndex_same s x (p := .pc) (by decide)

@[simp] theorem State.advanceIndex_memory (x : Nibble) : (s.advanceIndex x).memory = s.memory := by
  rw [State.advanceIndex_eq, State.setI_memory]

end

section
variable {i : Instr} {s t : State}

/-- No instruction writes the parameters. -/
theorem exec_config (h : exec i s = .next t) : t.config = s.config :=
  exec_onlyTouches h .config (by cases i <;> simp [writtenParts])

theorem exec_key (h : exec i s = .next t) : t.key = s.key :=
  exec_onlyTouches h .key (by cases i <;> simp [writtenParts])

theorem exec_status (h : exec i s = .next t) : t.status = s.status :=
  exec_onlyTouches h .status (by cases i <;> simp [writtenParts])

/-! ### Memory -/

/-- All that an instruction can do to the list of memory: nothing, or store bytes inside the memory. -/
theorem exec_memory_cases (h : exec i s = .next t) : t.memory = s.memory ∨
    ∃ bs, s.I.toNat + bs.length ≤ memSize ∧ t.memory = (s.setBytes s.I.toNat bs).memory := by
  cases i with
  | ldB x =>
    obtain ⟨hin, rfl⟩ := exec_ldB_next h
    exact .inr ⟨[_, _, _], hin, rfl⟩
  | ldIVx x =>
    obtain ⟨hin, rfl⟩ := exec_ldIVx_next h
    exact .inr ⟨s.regsUpTo x, by simpa [regCount] using hin, by simp⟩
  | ret =>
    obtain ⟨k, -, rfl⟩ := exec_ret_next h
    exact .inl rfl
  | call nnn =>
    obtain ⟨hlt, rfl⟩ := exec_call_next h
    exact .inl rfl
  | sknp x =>
    obtain ⟨pressed, -, rfl⟩ := exec_sknp_next h
    exact .inl rfl
  | skp x =>
    obtain ⟨pressed, -, rfl⟩ := exec_skp_next h
    exact .inl rfl
  | ldVxK x =>
    obtain ⟨-, ⟨k, -, rfl⟩ | ⟨-, rfl⟩⟩ := exec_ldVxK_next h <;> exact .inl rfl
  | ldVxI x =>
    obtain ⟨-, rfl⟩ := exec_ldVxI_next h
    exact .inl (by simp)
  | drw x y n =>
    obtain ⟨c, -, -, rfl⟩ := exec_drw_next h
    exact .inl rfl
  | orReg _ _ | xorReg _ _ => cases h; exact .inl (by simp)
  | _ => cases h; exact .inl rfl

theorem exec_memoryWf (h : exec i s = .next t) (hs : s.memoryWf) : t.memoryWf := by
  unfold State.memoryWf
  rw [exec_config h]
  obtain hm | ⟨bs, hin, hm⟩ := exec_memory_cases h <;> rw [hm]
  · exact hs
  · exact State.memoryWf_setBytes hs _ bs (.inr hin)

/-! ### Call stack -/

/-- The call stack keeps its form where the stack and its pointer are as before. -/
theorem State.stackWf_congr (hk : t.stack = s.stack) (hp : t.sp = s.sp) (hs : s.stackWf) : t.stackWf := by
  unfold State.stackWf
  rwa [hk, hp]

/-- `CALL` pushes an address that was fetched from, and `RET` only shortens the stack (spec/41_control_flow.md R123). -/
theorem exec_stackWf (h : exec i s = .next t) (hpc : s.pc.toNat ≤ 0xFFE) (hs : s.stackWf) : t.stackWf := by
  cases i with
  | ret =>
    obtain ⟨k, hk, rfl⟩ := exec_ret_next h
    intro j (hj : j.val < k.val)
    exact hs j (by omega)
  | call nnn =>
    obtain ⟨hlt, rfl⟩ := exec_call_next h
    intro j (hj : j.val < s.sp.val + 1)
    by_cases hjk : s.sp.val = j.val
    · simpa [hjk] using hpc
    · simpa [Vector.getElem_set, hjk] using hs j (by omega)
  | _ =>
    have frame := exec_onlyTouches h
    exact State.stackWf_congr (frame .stack (by simp [writtenParts])) (frame .sp (by simp [writtenParts])) hs

/-! ### Program counter -/

/-- The values that an instruction can leave in the program counter. -/
inductive NextPc (i : Instr) (s : State) : Word → Prop
  | stay : NextPc i s s.pc
  | advance : NextPc i s (s.pc + 2)
  | skip : NextPc i s (s.pc + 4)
  | back (k : Fin 16) (hk : k.val < s.sp.val) : NextPc i s (s.stack[k] + 2)
  | jump (nnn : Address) : NextPc i s (nnn.setWidth 16)
  | jumpOffset (nnn : Address) (v : Byte) (hi : i = .jpV0 nnn) : NextPc i s (nnn.setWidth 16 + v.setWidth 16)

theorem NextPc.of_skipIf (c : Bool) : NextPc i s (s.skipIf c).pc := by
  cases c
  · exact .advance
  · exact .skip

theorem exec_nextPc (h : exec i s = .next t) : NextPc i s t.pc := by
  cases i with
  | ret =>
    obtain ⟨k, hk, rfl⟩ := exec_ret_next h
    exact .back k (by omega)
  | call nnn =>
    obtain ⟨hlt, rfl⟩ := exec_call_next h
    exact .jump nnn
  | jp nnn => cases h; exact .jump nnn
  | jpV0 nnn => cases h; exact .jumpOffset nnn _ rfl
  | seImm _ _ | sneImm _ _ | seReg _ _ | sneReg _ _ => cases h; exact .of_skipIf _
  | sknp x =>
    obtain ⟨pressed, -, rfl⟩ := exec_sknp_next h
    exact .of_skipIf _
  | skp x =>
    obtain ⟨pressed, -, rfl⟩ := exec_skp_next h
    exact .of_skipIf _
  | ldVxK x =>
    obtain ⟨-, ⟨k, -, rfl⟩ | ⟨-, rfl⟩⟩ := exec_ldVxK_next h
    · exact .advance
    · exact .stay
  | ldVxI x =>
    obtain ⟨-, rfl⟩ := exec_ldVxI_next h
    simpa using NextPc.advance
  | ldB x =>
    obtain ⟨-, rfl⟩ := exec_ldB_next h
    simpa using NextPc.advance
  | ldIVx x =>
    obtain ⟨-, rfl⟩ := exec_ldIVx_next h
    simpa using NextPc.advance
  | drw x y n =>
    obtain ⟨c, -, -, rfl⟩ := exec_drw_next h
    exact .advance
  | orReg _ _ | xorReg _ _ => cases h; simpa using NextPc.advance
  | _ => cases h; exact .advance

theorem address_le (nnn : Address) : (nnn.setWidth 16 : Word).toNat ≤ 0xFFF := by
  have := nnn.isLt
  rw [BitVec.toNat_setWidth]
  exact (Nat.mod_le _ _).trans (by omega)

theorem le_pcBound_of_le {n : Nat} (h : n ≤ 0x1002) (p : Profile) : n ≤ pcBound p := by
  cases p <;> simp only [pcBound] <;> omega

/-- From an address that can be fetched no instruction of the profile leaves the reachable range (spec/40_step_cycle.md R106;
spec/47_full_profile.md R231). -/
theorem NextPc.le_pcBound {p : Profile} {a : Word} (h : NextPc i s a) (hi : i.wellFormed p = true)
    (hpc : s.pc.toNat ≤ 0xFFE) (hs : s.stackWf) : a.toNat ≤ pcBound p := by
  cases h with
  | stay => exact le_pcBound_of_le (by omega) p
  | advance => exact le_pcBound_of_le (by bv_omega) p
  | skip => exact le_pcBound_of_le (by bv_omega) p
  | back k hk =>
    have hk' := hs k hk
    exact le_pcBound_of_le (by bv_omega) p
  | jump nnn => exact le_pcBound_of_le ((address_le nnn).trans (by decide)) p
  | jumpOffset nnn v hj =>
    subst hj
    cases p with
    | reference => cases hi
    | full q =>
      have := nnn.isLt
      have := v.isLt
      simp only [pcBound, BitVec.toNat_add, BitVec.toNat_setWidth]
      omega

/-! ### Index register -/

theorem glyphAddress_le (v : Byte) : (glyphAddress v).toNat ≤ 0xFFF := by
  have := v.isLt
  rw [glyphAddress, BitVec.toNat_ofNat]
  exact (Nat.mod_le _ _).trans (by omega)

/-- In the reference profile `Fx65` leaves `I` as it is (spec/43_memory_index.md R164). -/
theorem State.advanceIndex_of_reference (hp : s.config.profile = .reference) (x : Nibble) : s.advanceIndex x = s := by
  simp [State.advanceIndex, State.quirks, hp, quirksOf, takenQuirks]

/-- Of the reference instructions only `Annn` and `Fx29` write `I`, each an address inside the memory (spec/10_state.md R25). -/
theorem exec_indexWf (h : exec i s = .next t) (hi : i.wellFormed s.config.profile = true) (hs : s.indexWf) : t.indexWf := by
  unfold State.indexWf
  rw [exec_config h]
  intro hp
  rw [hp] at hi
  cases i with
  | ldI nnn => cases h; exact address_le nnn
  | ldF x => cases h; exact glyphAddress_le _
  | ldVxI x =>
    obtain ⟨-, rfl⟩ := exec_ldVxI_next h
    rw [State.advanceIndex_of_reference (by simpa using hp)]
    simpa using hs hp
  | addI _ | ldIVx _ => cases hi
  | _ =>
    have hI : t.I = s.I := exec_onlyTouches h .I (by simp [writtenParts])
    rw [hI]
    exact hs hp

end

/-! ### The whole invariant -/

theorem decodeReference_not_fullOnly {w : Word} {i : Instr} (h : decodeReference w = some i) : i.fullOnly = false := by
  unfold decodeReference at h
  repeat' split at h
  all_goals cases h
  all_goals rfl

/-- What decodes is of the profile (spec/30_encoding.md R87). -/
theorem decode_wellFormed {p : Profile} {w : Word} {i : Instr} (h : decode p w = .ok i) : i.wellFormed p = true := by
  cases p with
  | full q => rfl
  | reference =>
    cases hw : decodeReference w with
    | none => simp [decode, hw] at h
    | some j =>
      obtain rfl : j = i := by simpa [decode, hw] using h
      simp [Instr.wellFormed, decodeReference_not_fullOnly hw]

section
variable {s t : State}

theorem exec_inv {i : Instr} (h : exec i s = .next t) (hi : i.wellFormed s.config.profile = true)
    (hpc : s.pc.toNat ≤ 0xFFE) (hs : s.Inv) : t.Inv := by
  obtain ⟨hmem, hstack, -, hindex⟩ := hs
  refine ⟨exec_memoryWf h hmem, exec_stackWf h hpc hstack, ?_, exec_indexWf h hi hindex⟩
  unfold State.pcWf
  rw [exec_config h]
  exact (exec_nextPc h).le_pcBound hi hpc hstack

/-- The invariant does not look at the timers. -/
theorem tickTimers_inv (hs : s.Inv) : s.tickTimers.Inv := hs

theorem step_inv (h : step s = .next t) (hs : s.Inv) : t.Inv := by
  obtain ⟨-, w, i, u, hw, hi, hu, rfl⟩ := step_next_cases h
  have hpc : s.pc.toNat + 1 < 4096 := s.pc_lt_of_fetch hw
  exact tickTimers_inv (exec_inv hu (decode_wellFormed hi) (by omega) hs)

theorem driverStep_inv (hs : s.Inv) : (driverStep s).1.Inv := by
  cases h : step s with
  | next t => rw [driverStep_of_next h]; exact step_inv h hs
  | fault f => rw [driverStep_of_fault h]; exact hs
  | refused r => rw [driverStep_of_refused h]; exact hs

/-- The reset state meets the invariant with any parameters: nothing is listed and nothing is on the stack. -/
theorem driverReset_inv (s : State) : (driverReset s).Inv := by
  refine ⟨⟨List.Pairwise.nil, fun c hc => absurd hc List.not_mem_nil⟩, fun k hk => absurd hk (Nat.not_lt_zero _), ?_,
    fun _ => ?_⟩
  · exact le_pcBound_of_le (show 0x200 ≤ 0x1002 by decide) _
  · exact Nat.zero_le 0xFFF

/-- Storing bytes inside the memory keeps the invariant. -/
theorem setBytes_inv {a : Nat} {bs : List Byte} (ha : a + bs.length ≤ memSize) (hs : s.Inv) : (s.setBytes a bs).Inv := by
  obtain ⟨hmem, hstack, hpc, hindex⟩ := hs
  have hwf := State.memoryWf_setBytes hmem a bs (.inr ha)
  rw [State.setBytes_eq]
  exact ⟨hwf, hstack, hpc, hindex⟩

theorem driverLoad_inv {bytes : List Byte} {origin : Nat} (hs : s.Inv) : (driverLoad bytes origin s).1.Inv := by
  unfold driverLoad
  split
  · exact hs
  · exact setBytes_inv (by omega) hs

/-- Every operation of the driver keeps the invariant. -/
theorem perform_inv (op : DriverOp) (hs : s.Inv) : (op.perform s).1.Inv := by
  cases op with
  | reset => exact driverReset_inv s
  | loadProgram bytes origin => exact driverLoad_inv hs
  | step => exact driverStep_inv hs
  | takeRedrawFlag | readFramebuffer | readSoundTimer | setKey k pressed => exact hs

end

end Sys2Proof.Machine
end

section
/-! The statements about the state, settled. -/

open Sys2Proof Sys2Proof.Machine

/-- Settles O49: the frame and the register list of each instruction, put together. -/
theorem everyInstructionKeepsItsFrame : Obligations.EveryInstructionKeepsItsFrame :=
  fun _ _ _ h => ⟨exec_onlyTouches h, fun _ hr => exec_reg_of_mayChangeReg_eq_false h hr⟩

/-- Settles O51: `VF` is one of the registers that the instruction may change, which leaves the ten listed forms. -/
theorem vfIsWrittenOnlyAsFlagOrDestination : Obligations.VfIsWrittenOnlyAsFlagOrDestination := by
  intro i s t hi h hne
  have hr : mayChangeReg i 0xF = true :=
    Bool.eq_true_of_not_eq_false fun hr => hne (exec_reg_of_mayChangeReg_eq_false h hr)
  cases i with
  | ldImm x _ | addImm x _ | ldReg x _ | andReg x _ | rnd x _ | ldVxDt x =>
    obtain rfl : 0xF = x := by simpa [mayChangeReg] using hr
    simp
  | ldVxI x =>
    have hx : 15 ≤ x.toNat := by simpa [mayChangeReg] using hr
    obtain rfl : x = 0xF := BitVec.eq_of_toNat_eq (by have := x.isLt; simp; omega)
    simp
  | addReg _ _ | subReg _ _ | drw _ _ _ => simp
  | orReg _ _ | xorReg _ _ | shr _ _ | shl _ _ | subn _ _ | ldVxK _ => cases hi
  | _ => cases hr

/-- Settles O54: keys, status and parameters are in no instruction's frame, and a step starts from a running machine. -/
theorem stepsLeaveKeysStatusAndParametersAlone : Obligations.StepsLeaveKeysStatusAndParametersAlone := by
  intro s t h
  obtain ⟨hrun, w, i, u, -, -, hu, rfl⟩ := step_next_cases h
  have hkey := exec_key hu
  have hconfig := exec_config hu
  have hstatus := exec_status hu
  exact ⟨hkey, hconfig, hrun, hstatus.trans hrun⟩

/-- Settles O55: a step that answers is one instruction, fetched inside the memory, and a tick. -/
theorem everyStepKeepsTheInvariant : Obligations.EveryStepKeepsTheInvariant :=
  fun _ _ hs h => step_inv h hs

/-- Settles O57, by induction on the session. -/
theorem everyDriverSessionKeepsTheInvariant : Obligations.EveryDriverSessionKeepsTheInvariant := by
  intro ops
  induction ops with
  | nil => exact fun s hs => hs
  | cons op ops ih => exact fun s hs => ih _ (perform_inv op hs)

/-- Settles O60: each operation's answer is its definition's, and it writes one part of the state at most. -/
theorem hostViewsAndKeyWritesDoOnlyTheirPart : Obligations.HostViewsAndKeyWritesDoOnlyTheirPart := by
  intro s k pressed
  refine ⟨rfl, rfl, ⟨_, rfl, ?_, rfl⟩, ⟨_, rfl, ?_, fun j => ?_⟩⟩
  · exact OnlyTouches.refl.setRedraw (by simp)
  · exact OnlyTouches.refl.setKeys (by simp)
  · simp [Vector.getElem_set, Fin.ext_iff, eq_comm]

end

section
/-! SUPPORT. Decoding inverts encoding on the instructions of a profile: the fields of an assembled word read back
(spec/30_encoding.md R82 to R85; spec/47_full_profile.md R222). -/

namespace Sys2Proof

/-- The reference rows read back the word of each instruction of theirs, and none of them takes the word of another. -/
theorem decodeReference_encode (i : Instr) :
    decodeReference (encode i) = if i.fullOnly then none else some i := by
  cases i with
  | ret | cls => decide
  | _ => simp [decodeReference, encode, Instr.fullOnly]

/-- The rows that FULL adds read back the word of each instruction of theirs. -/
theorem decodeFullOnly_encode {i : Instr} (h : i.fullOnly = true) : decodeFullOnly (encode i) = some i := by
  cases i with
  | cls => decide
  | seReg _ _ | sneReg _ _ | orReg _ _ | xorReg _ _ | shr _ _ | subn _ _ | shl _ _ | jpV0 _ | skp _ | ldVxK _ | addI _
  | ldIVx _ => simp [decodeFullOnly, encode]
  | _ => cases h

/-- Decoding inverts encoding on the instructions of the profile. -/
theorem decode_encode {p : Profile} {i : Instr} (h : i.wellFormed p = true) : decode p (encode i) = .ok i := by
  cases hi : i.fullOnly with
  | false => simp [decode, decodeReference_encode, hi]
  | true =>
    cases p with
    | reference => simp [Instr.wellFormed, hi] at h
    | full q => simp [decode, decodeReference_encode, decodeFullOnly_encode hi, hi]

end Sys2Proof
end

section
/-! SUPPORT. A step from what stands at `pc`, and the memory accesses of one byte (spec/40_step_cycle.md R100;
spec/20_memory.md R62, R63). -/

namespace Sys2Proof.Machine

variable {s t : State}

/-- A step whose word decodes is that instruction and then the timer tick. -/
theorem step_of_exec_next {w : Word} {i : Instr} (hrun : s.status = .running) (hw : s.fetch = .ok w)
    (hi : decode s.config.profile w = .ok i) (ht : exec i s = .next t) : step s = .next t.tickTimers := by
  simp [step, hrun, hw, hi, ht]

/-- The fetched word is the one whose number the two bytes at `pc` make, the high byte first. -/
theorem State.fetch_of_bytes {w : Word} (hpc : s.pc.toNat + 1 < memSize)
    (hw : (s.byteAt s.pc.toNat).toNat * 256 + (s.byteAt (s.pc.toNat + 1)).toNat = w.toNat) : s.fetch = .ok w := by
  rw [s.fetch_of_lt hpc, BitVec.eq_of_toNat_eq ((wordOfBytes_toNat _ _).trans hw)]

theorem OnlyTouches.setByte {ps : List Part} {a : Nat} {v : Byte} (h : OnlyTouches ps s t) (hq : .memory ∈ ps) :
    OnlyTouches ps s (t.setByte a v) :=
  h.setBytes (bs := [v]) hq

/-- A read after a write inside the memory, at the same address and at any other, in memory or not. -/
theorem State.memRead_setByte {a : Nat} (ha : a < memSize) (b : Nat) (v : Byte) :
    (s.setByte a v).memRead b = if b = a then .ok v else s.memRead b := by
  by_cases hba : b = a
  · rw [hba, State.memRead_of_lt _ ha, State.byteAt_setByte, if_pos rfl, if_pos rfl]
  · simp only [State.memRead, State.byteAt_setByte, if_neg hba]

end Sys2Proof.Machine
end

section
/-! The statements about memory, settled. -/

open Sys2Proof Sys2Proof.Machine

/-- Settles O9: the two bytes at `pc` make the instruction's word, which decodes to the instruction again. -/
theorem stepRunsTheEncodedInstruction : Obligations.StepRunsTheEncodedInstruction :=
  fun _ _ _ hrun hpc hwf hbytes ht => step_of_exec_next hrun (State.fetch_of_bytes hpc hbytes) (decode_encode hwf) ht

/-- Settles O37: inside the memory a write stores one byte, and above it both operations fault. -/
theorem memReadGivesTheLastWrite : Obligations.MemReadGivesTheLastWrite := by
  intro s a b v
  refine ⟨fun ha => ⟨s.setByte a v, s.memWrite_of_lt ha v, ?_, State.memRead_setByte ha b v⟩, fun ha => ?_⟩
  · exact OnlyTouches.refl.setByte (by simp)
  · exact ⟨s.memWrite_of_ge ha v, s.memRead_of_ge ha⟩

end

section
/-! SUPPORT. What a word's fields and the row it selects say: a word that decodes is the word of its instruction, and a row
of the opcode table selects the words of one instruction form and no others (spec/30_encoding.md R84 to R87;
spec/47_full_profile.md R222). -/

namespace Sys2Proof.Laws.SelectsOwnRow

/-- The family, over all instructions. -/
theorem all : ∀ i : Instr, Statement i
  | .ret => ret | .jp _ => jp _ | .call _ => call _ | .seImm _ _ => seImm _ _ | .sneImm _ _ => sneImm _ _
  | .ldImm _ _ => ldImm _ _ | .addImm _ _ => addImm _ _ | .ldReg _ _ => ldReg _ _ | .andReg _ _ => andReg _ _
  | .addReg _ _ => addReg _ _ | .subReg _ _ => subReg _ _ | .ldI _ => ldI _ | .rnd _ _ => rnd _ _
  | .drw _ _ _ => drw _ _ _ | .sknp _ => sknp _ | .ldVxDt _ => ldVxDt _ | .ldDtVx _ => ldDtVx _ | .ldStVx _ => ldStVx _
  | .ldF _ => ldF _ | .ldB _ => ldB _ | .ldVxI _ => ldVxI _ | .cls => cls | .seReg _ _ => seReg _ _
  | .sneReg _ _ => sneReg _ _ | .orReg _ _ => orReg _ _ | .xorReg _ _ => xorReg _ _ | .shr _ _ => shr _ _
  | .subn _ _ => subn _ _ | .shl _ _ => shl _ _ | .jpV0 _ => jpV0 _ | .skp _ => skp _ | .ldVxK _ => ldVxK _
  | .addI _ => addI _ | .ldIVx _ => ldIVx _

end Sys2Proof.Laws.SelectsOwnRow

namespace Sys2Proof

open Machine

/-! ### A word from its format's fixed fields and its operands -/

section
variable {w : Word} {f n : Nibble} {nn : Byte}

theorem formNNN_of_fieldF (hf : fieldF w = f) : formNNN f (fieldNNN w) = w := hf ▸ formNNN_fields w

theorem formXNN_of_fields (hf : fieldF w = f) (hnn : fieldNN w = nn) : formXNN f (fieldX w) nn = w :=
  hf ▸ hnn ▸ formXNN_fields w

theorem formXYN_of_fields (hf : fieldF w = f) (hn : fieldN w = n) : formXYN f (fieldX w) (fieldY w) n = w :=
  hf ▸ hn ▸ formXYN_fields w

end

/-! ### An accepted word is its instruction's word (R87) -/

section
variable {p : Profile} {w : Word} {i : Instr}

/-- Each arm of the decoder fixes the fields that its instruction's format fixes, and reads the others as operands. -/
theorem encode_of_decodeReference (h : decodeReference w = some i) : encode i = w := by
  unfold decodeReference at h
  repeat' split at h
  all_goals cases h
  all_goals simp [encode, formNNN_of_fieldF, formXNN_of_fields, formXYN_of_fields, *]

theorem encode_of_decodeFullOnly (h : decodeFullOnly w = some i) : encode i = w := by
  unfold decodeFullOnly at h
  repeat' split at h
  all_goals cases h
  all_goals simp [encode, formNNN_of_fieldF, formXNN_of_fields, formXYN_of_fields, *]

theorem encode_of_decode (h : decode p w = .ok i) : encode i = w := by
  unfold decode at h
  split at h
  next hw => cases h; exact encode_of_decodeReference hw
  next => cases h
  next =>
    split at h
    next hw => cases h; exact encode_of_decodeFullOnly hw
    next => cases h

/-- Under each profile, decoding and encoding are inverse to each other. -/
theorem decode_eq_ok_iff : decode p w = .ok i ↔ encode i = w ∧ i.wellFormed p = true :=
  ⟨fun h => ⟨encode_of_decode h, decode_wellFormed h⟩, fun ⟨hw, hi⟩ => hw ▸ decode_encode hi⟩

end

theorem decode_reference_eq_error_iff : decode .reference w = .error (.unknownOpcode w) ↔ decodeReference w = none := by
  cases hw : decodeReference w <;> simp [decode, hw]

/-! ### The words that a row selects (R85, R222) -/

section
variable {w b : Word} {f n : Nibble} {nn : Byte}

theorem fieldF_of_and_F000 (h : w &&& 0xF000#16 = b) (hf : fieldF b = f) : fieldF w = f := by
  rw [← hf, ← h, and_F000, fieldF_formNNN]

theorem formNNN_of_and_F000 (h : w &&& 0xF000#16 = b) (hf : fieldF b = f) : formNNN f (fieldNNN w) = w :=
  formNNN_of_fieldF (fieldF_of_and_F000 h hf)

theorem formXNN_of_and_F000 (h : w &&& 0xF000#16 = b) (hf : fieldF b = f) : formXNN f (fieldX w) (fieldNN w) = w :=
  formXNN_of_fields (fieldF_of_and_F000 h hf) rfl

theorem formXYN_of_and_F000 (h : w &&& 0xF000#16 = b) (hf : fieldF b = f) :
    formXYN f (fieldX w) (fieldY w) (fieldN w) = w :=
  formXYN_of_fields (fieldF_of_and_F000 h hf) rfl

theorem formXYN_of_and_F00F (h : w &&& 0xF00F#16 = b) (hf : fieldF b = f) (hn : fieldN b = n) :
    formXYN f (fieldX w) (fieldY w) n = w := by
  rw [and_F00F] at h
  exact formXYN_of_fields (by rw [← hf, ← h, fieldF_formXYN]) (by rw [← hn, ← h, fieldN_formXYN])

theorem formXNN_of_and_F0FF (h : w &&& 0xF0FF#16 = b) (hf : fieldF b = f) (hn : fieldNN b = nn) :
    formXNN f (fieldX w) nn = w := by
  rw [and_F0FF] at h
  exact formXNN_of_fields (by rw [← hf, ← h, fieldF_formXNN]) (by rw [← hn, ← h, fieldNN_formXNN])

end

section
variable (w : Word)

/-- Row by row, the reference instruction whose word a selected word is. -/
theorem exists_encode_of_mem_referenceRows : ∀ r ∈ referenceRows, w &&& r.mask = r.bits →
    ∃ i, i.fullOnly = false ∧ i.row = r ∧ encode i = w := by
  simp only [referenceRows, List.cons_append, List.nil_append, List.forall_mem_cons]
  exact ⟨fun h => ⟨.ret, rfl, rfl, h.symm.trans (and_FFFF w)⟩,
    fun h => ⟨.jp (fieldNNN w), rfl, rfl, formNNN_of_and_F000 h rfl⟩,
    fun h => ⟨.call (fieldNNN w), rfl, rfl, formNNN_of_and_F000 h rfl⟩,
    fun h => ⟨.seImm (fieldX w) (fieldNN w), rfl, rfl, formXNN_of_and_F000 h rfl⟩,
    fun h => ⟨.sneImm (fieldX w) (fieldNN w), rfl, rfl, formXNN_of_and_F000 h rfl⟩,
    fun h => ⟨.ldImm (fieldX w) (fieldNN w), rfl, rfl, formXNN_of_and_F000 h rfl⟩,
    fun h => ⟨.addImm (fieldX w) (fieldNN w), rfl, rfl, formXNN_of_and_F000 h rfl⟩,
    fun h => ⟨.ldReg (fieldX w) (fieldY w), rfl, rfl, formXYN_of_and_F00F h rfl rfl⟩,
    fun h => ⟨.andReg (fieldX w) (fieldY w), rfl, rfl, formXYN_of_and_F00F h rfl rfl⟩,
    fun h => ⟨.addReg (fieldX w) (fieldY w), rfl, rfl, formXYN_of_and_F00F h rfl rfl⟩,
    fun h => ⟨.subReg (fieldX w) (fieldY w), rfl, rfl, formXYN_of_and_F00F h rfl rfl⟩,
    fun h => ⟨.ldI (fieldNNN w), rfl, rfl, formNNN_of_and_F000 h rfl⟩,
    fun h => ⟨.rnd (fieldX w) (fieldNN w), rfl, rfl, formXNN_of_and_F000 h rfl⟩,
    fun h => ⟨.drw (fieldX w) (fieldY w) (fieldN w), rfl, rfl, formXYN_of_and_F000 h rfl⟩,
    fun h => ⟨.sknp (fieldX w), rfl, rfl, formXNN_of_and_F0FF h rfl rfl⟩,
    fun h => ⟨.ldVxDt (fieldX w), rfl, rfl, formXNN_of_and_F0FF h rfl rfl⟩,
    fun h => ⟨.ldDtVx (fieldX w), rfl, rfl, formXNN_of_and_F0FF h rfl rfl⟩,
    fun h => ⟨.ldStVx (fieldX w), rfl, rfl, formXNN_of_and_F0FF h rfl rfl⟩,
    fun h => ⟨.ldF (fieldX w), rfl, rfl, formXNN_of_and_F0FF h rfl rfl⟩,
    fun h => ⟨.ldB (fieldX w), rfl, rfl, formXNN_of_and_F0FF h rfl rfl⟩,
    fun h => ⟨.ldVxI (fieldX w), rfl, rfl, formXNN_of_and_F0FF h rfl rfl⟩,
    List.forall_mem_nil _⟩

/-- Row by row, the instruction of FULL alone whose word a selected word is. -/
theorem exists_encode_of_mem_fullOnlyRows : ∀ r ∈ fullOnlyRows, w &&& r.mask = r.bits →
    ∃ i : Instr, i.row = r ∧ encode i = w := by
  simp only [fullOnlyRows, List.forall_mem_cons]
  exact ⟨fun h => ⟨.cls, rfl, h.symm.trans (and_FFFF w)⟩,
    fun h => ⟨.seReg (fieldX w) (fieldY w), rfl, formXYN_of_and_F00F h rfl rfl⟩,
    fun h => ⟨.sneReg (fieldX w) (fieldY w), rfl, formXYN_of_and_F00F h rfl rfl⟩,
    fun h => ⟨.orReg (fieldX w) (fieldY w), rfl, formXYN_of_and_F00F h rfl rfl⟩,
    fun h => ⟨.xorReg (fieldX w) (fieldY w), rfl, formXYN_of_and_F00F h rfl rfl⟩,
    fun h => ⟨.shr (fieldX w) (fieldY w), rfl, formXYN_of_and_F00F h rfl rfl⟩,
    fun h => ⟨.subn (fieldX w) (fieldY w), rfl, formXYN_of_and_F00F h rfl rfl⟩,
    fun h => ⟨.shl (fieldX w) (fieldY w), rfl, formXYN_of_and_F00F h rfl rfl⟩,
    fun h => ⟨.jpV0 (fieldNNN w), rfl, formNNN_of_and_F000 h rfl⟩,
    fun h => ⟨.skp (fieldX w), rfl, formXNN_of_and_F0FF h rfl rfl⟩,
    fun h => ⟨.ldVxK (fieldX w), rfl, formXNN_of_and_F0FF h rfl rfl⟩,
    fun h => ⟨.addI (fieldX w), rfl, formXNN_of_and_F0FF h rfl rfl⟩,
    fun h => ⟨.ldIVx (fieldX w), rfl, formXNN_of_and_F0FF h rfl rfl⟩,
    List.forall_mem_nil _⟩

end

theorem encode_selects_row (i : Instr) : encode i &&& i.row.mask = i.row.bits := by
  simpa [Laws.SelectsOwnRow.Statement, OpcodeRow.selects] using Laws.SelectsOwnRow.all i

theorem row_mem_of_fullOnly (i : Instr) : i.row ∈ if i.fullOnly then fullOnlyRows else referenceRows := by
  cases i <;> simp [Instr.row, Instr.fullOnly, fullOnlyRows, referenceRows]

theorem row_mem_opcodeRows {p : Profile} {i : Instr} (h : i.wellFormed p = true) : i.row ∈ opcodeRows p := by
  have hrow := row_mem_of_fullOnly i
  cases p with
  | reference =>
    have hi : i.fullOnly = false := by simpa [Instr.wellFormed] using h
    simpa [opcodeRows, hi] using hrow
  | full q =>
    cases hi : i.fullOnly with
    | false => exact List.mem_append_left _ (by simpa [hi] using hrow)
    | true => exact List.mem_append_right _ (by simpa [hi] using hrow)

/-- A word selects a row of the profile's table exactly when it decodes to an instruction of that row. -/
theorem exists_decode_iff {p : Profile} {w : Word} {r : OpcodeRow} : (∃ i, decode p w = .ok i ∧ i.row = r) ↔
    r ∈ opcodeRows p ∧ w &&& r.mask = r.bits := by
  constructor
  · rintro ⟨i, hi, rfl⟩
    obtain ⟨rfl, hwf⟩ := decode_eq_ok_iff.mp hi
    exact ⟨row_mem_opcodeRows hwf, encode_selects_row i⟩
  · rintro ⟨hr, hw⟩
    cases p with
    | reference =>
      obtain ⟨i, hi, rfl, rfl⟩ := exists_encode_of_mem_referenceRows w r hr hw
      exact ⟨i, decode_encode (by simp [Instr.wellFormed, hi]), rfl⟩
    | full q =>
      rcases List.mem_append.mp hr with hr | hr
      · obtain ⟨i, -, rfl, rfl⟩ := exists_encode_of_mem_referenceRows w r hr hw
        exact ⟨i, decode_encode rfl, rfl⟩
      · obtain ⟨i, rfl, rfl⟩ := exists_encode_of_mem_fullOnlyRows w r hr hw
        exact ⟨i, decode_encode rfl, rfl⟩

end Sys2Proof
end

section
/-! The statements about the encoding, settled. -/

open Sys2Proof Sys2Proof.Machine

/-- Settles O1, by running the decoder on each word. -/
theorem decodeReadsWrittenOutWords : Obligations.DecodeReadsWrittenOutWords := by
  unfold Obligations.DecodeReadsWrittenOutWords
  decide

/-- Settles O2: the fields of an assembled word read back. -/
theorem decodeInvertsEncode : Obligations.DecodeInvertsEncode := fun _ _ => decode_encode

/-- Settles O3: decoding and encoding are inverse to each other. -/
theorem decodedWordIsTheInstructionsWord : Obligations.DecodedWordIsTheInstructionsWord :=
  fun _ _ _ => decode_eq_ok_iff.mp

/-- Settles O4: a word selects the row of the instruction it decodes to, and decodes to one of any row it selects. -/
theorem wordDecodesIffItSelectsARow : Obligations.WordDecodesIffItSelectsARow := by
  intro p w
  have hrow : ∀ i, decode p w = .ok i → i.row ∈ opcodeRows p ∧ w &&& i.row.mask = i.row.bits :=
    fun i hi => exists_decode_iff.mp ⟨i, hi, rfl⟩
  refine ⟨⟨fun ⟨i, hi⟩ => ⟨i.row, hrow i hi⟩, fun ⟨r, hr⟩ => ?_⟩, hrow⟩
  obtain ⟨i, hi, -⟩ := exists_decode_iff.mpr hr
  exact ⟨i, hi⟩

/-- Settles O5: each row that a word selects is the row of the one instruction that the word decodes to. -/
theorem wordSelectsAtMostOneRow : Obligations.WordSelectsAtMostOneRow := by
  intro p w r₁ r₂ hr₁ hr₂ hw₁ hw₂
  obtain ⟨i, hi, rfl⟩ := exists_decode_iff.mpr ⟨hr₁, hw₁⟩
  obtain ⟨j, hj, rfl⟩ := exists_decode_iff.mpr ⟨hr₂, hw₂⟩
  obtain rfl : i = j := Except.ok.inj (hi.symm.trans hj)
  rfl

/-- Settles O6, family by family: the reference decoder has no arm for three families, and the arms of four others leave
words out. -/
theorem illegalWordsOfTheReferenceProfile : Obligations.IllegalWordsOfTheReferenceProfile := by
  intro w
  rw [decode_reference_eq_error_iff]
  unfold decodeReference
  split
  case h_1 hf =>
    by_cases hw : w = 0x00EE#16
    · subst hw; decide
    · simp [hf, hw]
  case h_8 hf => split <;> simp_all -- family 8: an arm per listed `n`, and one for the rest
  case h_13 hf => split <;> simp_all -- family F: an arm per listed `nn`, and one for the rest
  case h_14 =>
    -- No arm took the family: of the sixteen, three remain.
    have hfamily : fieldF w = 0x5#4 ∨ fieldF w = 0x9#4 ∨ fieldF w = 0xB#4 := by
      simp only [imp_false] at *
      bv_omega
    rcases hfamily with hf | hf | hf <;> simp [hf]
  -- The families with an arm for every word, and family E, whose one test is `nn = A1`.
  all_goals simp [*]

/-- Settles O11: a word of no row does not decode, and the step passes the decoder's rejection on. -/
theorem unmatchedWordFaultsWithTheWord : Obligations.UnmatchedWordFaultsWithTheWord := by
  intro s w hrun hw hrows
  cases hd : decode s.config.profile w with
  | ok i =>
    obtain ⟨hr, hsel⟩ := exists_decode_iff.mp ⟨i, hd, rfl⟩
    exact absurd hsel (hrows _ hr)
  | error e =>
    obtain rfl := decode_error hd
    simp [step, hrun, hw, hd]

end

section
/-! SUPPORT. The answers of a step from each stage that ends it, and the machine that has faulted
(spec/40_step_cycle.md R100 to R102, R107). -/

namespace Sys2Proof.Machine

variable {s : State} {f : Fault}

/-! ### The stage that ends a step -/

theorem step_of_faulted (hs : s.status = .faulted f) : step s = .fault f := by
  simp [step, hs]

theorem step_of_fetch_error (hrun : s.status = .running) (hw : s.fetch = .error f) : step s = .fault f := by
  simp [step, hrun, hw]

theorem step_of_exec_fault {w : Word} {i : Instr} (hrun : s.status = .running) (hw : s.fetch = .ok w)
    (hi : decode s.config.profile w = .ok i) (hf : exec i s = .fault f) : step s = .fault f := by
  simp [step, hrun, hw, hi, hf]

theorem step_of_exec_refused {w : Word} {i : Instr} {r : Refusal} (hrun : s.status = .running) (hw : s.fetch = .ok w)
    (hi : decode s.config.profile w = .ok i) (hr : exec i s = .refused r) : step s = .refused r := by
  simp [step, hrun, hw, hi, hr]

/-! ### A faulted machine under the driver's operations -/

/-- Recording the fault that the status already holds changes nothing. -/
theorem State.enterFaulted_of_faulted (hs : s.status = .faulted f) : s.enterFaulted f = s := by
  rw [State.enterFaulted, ← hs]

theorem driverStep_of_faulted (hs : s.status = .faulted f) : driverStep s = (s, .stepFault f) := by
  rw [driverStep_of_fault (step_of_faulted hs), State.enterFaulted_of_faulted hs]

@[simp] theorem State.setBytes_status (a : Nat) (bs : List Byte) : (s.setBytes a bs).status = s.status :=
  setBytes_same s a bs (p := .status) (by decide)

theorem driverLoad_status (bytes : List Byte) (origin : Nat) : (driverLoad bytes origin s).1.status = s.status := by
  unfold driverLoad
  split
  · rfl
  · exact State.setBytes_status origin bytes

/-- Every operation but reset leaves a faulted machine with its fault. -/
theorem perform_status_of_faulted (hs : s.status = .faulted f) {op : DriverOp} (hop : op ≠ .reset) :
    (op.perform s).1.status = .faulted f := by
  cases op with
  | reset => exact absurd rfl hop
  | loadProgram bytes origin => exact (driverLoad_status bytes origin).trans hs
  | step => rw [DriverOp.perform, driverStep_of_faulted hs, hs]
  | takeRedrawFlag | readFramebuffer | readSoundTimer | setKey k pressed => exact hs

end Sys2Proof.Machine
end

section
/-! The statements about the step, settled. -/

open Sys2Proof Sys2Proof.Machine

/-- Settles O8: the bytes at `pc` are fetched as the word that decodes, and the step ends as its instruction does. -/
theorem stepRunsTheDecodedInstruction : Obligations.StepRunsTheDecodedInstruction := by
  intro s i hrun hpc hi
  have hw := s.fetch_of_lt hpc
  exact ⟨fun _ => step_of_exec_next hrun hw hi, fun _ => step_of_exec_fault hrun hw hi,
    fun _ => step_of_exec_refused hrun hw hi⟩

/-- Settles O10: on either side of the bound on `pc + 1`; a fetch that faults ends the step. -/
theorem fetchReadsABigEndianWordOrFaults : Obligations.FetchReadsABigEndianWordOrFaults := by
  intro s
  refine ⟨fun hpc => ⟨_, s.fetch_of_lt hpc, wordOfBytes_toNat _ _⟩, fun hpc => ?_⟩
  have hw := s.fetch_of_ge hpc
  exact ⟨hw, fun hrun => step_of_fetch_error hrun hw⟩

/-- Settles O12: a step of a faulted machine ends before the fetch, and no operation but reset writes the status anew. -/
theorem faultedMachineAnswersItsFaultUntilReset : Obligations.FaultedMachineAnswersItsFaultUntilReset :=
  fun _ _ hs => ⟨step_of_faulted hs, driverStep_of_faulted hs, rfl, fun _ => perform_status_of_faulted hs⟩

/-- Settles O13: a fault carries no state, so the driver keeps the one before the step and records the fault in it. -/
theorem faultingStepIsUndone : Obligations.FaultingStepIsUndone :=
  fun _ _ _ hf => driverStep_of_fault hf

end

section
/-! SUPPORT. Control transfer: what CALL and RET answer on either side of the bounds of the call stack, the frame of two
operations one after the other, and a step from the word of an instruction of both profiles (spec/41_control_flow.md R120
to R124; spec/40_step_cycle.md R100). -/

namespace Sys2Proof.Machine

/-! ### Jump targets and the call stack -/

@[simp] theorem toNat_setWidth_address (nnn : Address) : (nnn.setWidth 16 : Word).toNat = nnn.toNat :=
  BitVec.toNat_setWidth_of_le (by decide)

section
variable {s : State}

theorem exec_call_of_lt (nnn : Address) (hsp : s.sp.val < 16) : exec (.call nnn) s =
    .next (({ s with stack := s.stack.set s.sp.val s.pc hsp, sp := ⟨s.sp.val + 1, Nat.succ_lt_succ hsp⟩ } : State).jumpTo
      (nnn.setWidth 16)) := by
  simp only [exec, execCall, s.push_of_lt _ hsp]

theorem exec_call_of_full (nnn : Address) (hsp : s.sp.val = 16) : exec (.call nnn) s = .fault (.stackOverflow s.pc) := by
  simp only [exec, execCall, s.push_of_full _ hsp, raise]

theorem exec_ret_of_pos (k : Fin 16) (hk : k.val + 1 = s.sp.val) : exec .ret s =
    .next (({ s with sp := ⟨k.val, by omega⟩ } : State).jumpTo (s.stack[k] + 2)) := by
  simp only [exec, execRet, s.pop_of_pos k hk]

theorem exec_ret_of_empty (hsp : s.sp.val = 0) : exec .ret s = .fault (.stackUnderflow s.pc) := by
  simp only [exec, execRet, s.pop_of_empty hsp, raise]

end

/-! ### Frames of two operations, and a step of one instruction -/

section
variable {ps qs : List Part} {s t u : State}

theorem OnlyTouches.mono (h : OnlyTouches ps s t) (hsub : ps ⊆ qs) : OnlyTouches qs s t :=
  fun p hp => h p fun hmem => hp (hsub hmem)

theorem OnlyTouches.trans (h₁ : OnlyTouches ps s t) (h₂ : OnlyTouches ps t u) : OnlyTouches ps s u :=
  fun p hp => Part.same_trans (h₁ p hp) (h₂ p hp)

theorem OnlyTouches.tickTimers (h : OnlyTouches ps s t) (hq : .DT ∈ ps ∧ .ST ∈ ps := by simp) :
    OnlyTouches ps s t.tickTimers :=
  (h.setDT (v := tick t.DT) hq.1).setST (v := tick t.ST) hq.2

/-- A part that ends as it began, whatever it held in between, leaves the list of a frame. -/
theorem OnlyTouches.of_cons {q : Part} (h : OnlyTouches (q :: ps) s t) (hq : q.same s t) : OnlyTouches ps s t := by
  intro p hp
  by_cases hpq : p = q
  · exact hpq ▸ hq
  · exact h p (by simp [hpq, hp])

/-- An instruction of the reference profile decodes under both profiles (spec/47_full_profile.md R220). -/
theorem wellFormed_of_not_fullOnly {i : Instr} (hi : i.fullOnly = false) (p : Profile) : i.wellFormed p = true := by
  cases p with
  | reference => simp [Instr.wellFormed, hi]
  | full _ => rfl

/-- Its word at `pc` is fetched and runs under both profiles. -/
theorem step_of_word {i : Instr} (hi : i.fullOnly = false) (hrun : s.status = .running) (hpc : s.pc.toNat + 1 < memSize)
    (hw : wordOfBytes (s.byteAt s.pc.toNat) (s.byteAt (s.pc.toNat + 1)) = encode i) (ht : exec i s = .next t) :
    step s = .next t.tickTimers := by
  have hfetch : s.fetch = .ok (encode i) := by rw [s.fetch_of_lt hpc, hw]
  exact step_of_exec_next hrun hfetch (decode_encode (wellFormed_of_not_fullOnly hi _)) ht

end

end Sys2Proof.Machine
end

section
/-! The statements about control transfer, settled. -/

open Sys2Proof Sys2Proof.Machine

/-- Settles O16: on either side of the bound on the stack pointer; the slot written is the one it named. -/
theorem callPushesItsOwnAddress : Obligations.CallPushesItsOwnAddress := by
  intro nnn s
  refine ⟨formNNN_toNat _ _, fun hsp => ?_, exec_call_of_full nnn⟩
  have ht := exec_call_of_lt nnn hsp
  refine ⟨_, ht, toNat_setWidth_address nnn, rfl, fun k => ?_, exec_onlyTouches ht⟩
  simp [Vector.getElem_set, eq_comm]

/-- Settles O17: on either side of the bound on the stack pointer; the stack itself is in the frame. -/
theorem retResumesAfterTheAddressPopped : Obligations.RetResumesAfterTheAddressPopped := by
  intro s
  refine ⟨rfl, fun k hk => ?_, exec_ret_of_empty⟩
  have ht := exec_ret_of_pos k hk
  exact ⟨_, ht, BitVec.toNat_add _ _, rfl, exec_onlyTouches ht⟩

/-- Settles O18: by O17 at the state that O16 gives, where the entry popped is the one just pushed. -/
theorem callThenRetResumesAfterTheCallSite : Obligations.CallThenRetResumesAfterTheCallSite := by
  intro s nnn hrun hsp hpc hnnn hcall hret
  obtain ⟨-, hpush, -⟩ := callPushesItsOwnAddress nnn s
  obtain ⟨t, ht, htpc, htsp, htstack, htouch⟩ := hpush hsp
  obtain ⟨-, hpop, -⟩ := retResumesAfterTheAddressPopped t.tickTimers
  obtain ⟨u, hu, hupc, husp, hutouch⟩ := hpop ⟨s.sp.val, hsp⟩ htsp.symm
  have hbytes : ∀ a, t.byteAt a = s.byteAt a := htouch .memory (by decide)
  have htrun : t.status = .running := (htouch .status (by decide)).trans hrun
  have hstep : step t.tickTimers = .next u.tickTimers :=
    step_of_word (i := .ret) rfl htrun (by simpa [htpc] using hnnn) (by simpa [htpc, hbytes] using hret) hu
  have htop : t.stack[s.sp.val] = s.pc := by simpa using htstack ⟨s.sp.val, hsp⟩
  have hsame : u.sp = s.sp := Fin.ext husp
  have hDT : u.DT = tick s.DT := (hutouch .DT (by decide)).trans (congrArg tick (htouch .DT (by decide)))
  have hST : u.ST = tick s.ST := (hutouch .ST (by decide)).trans (congrArg tick (htouch .ST (by decide)))
  refine ⟨_, _, step_of_word rfl hrun hpc hcall ht, hstep, ?_, hsame, ?_, ?_, ?_⟩
  · have hwrap : s.pc.toNat + 2 < 65536 := by unfold memSize at hpc; omega
    simpa [htop, Nat.mod_eq_of_lt hwrap] using hupc
  · rw [State.tickTimers_DT, hDT, tick_toNat, tick_toNat, Nat.sub_sub]
  · rw [State.tickTimers_ST, hST, tick_toNat, tick_toNat, Nat.sub_sub]
  · have hboth : OnlyTouches [.sp, .pc, .stack, .DT, .ST] s u :=
      (htouch.mono (by decide)).tickTimers.trans (hutouch.mono (by decide))
    exact hboth.tickTimers.of_cons hsame

/-- Settles O19: the target is the 12-bit operand, extended. -/
theorem jumpSetsOnlyThePc : Obligations.JumpSetsOnlyThePc :=
  fun nnn _ => ⟨formNNN_toNat _ _, _, rfl, toNat_setWidth_address nnn, OnlyTouches.refl.jumpTo⟩

/-- Settles O21: each instruction is the skip form on its condition. -/
theorem immediateSkipsAdvanceByFourOrTwo : Obligations.ImmediateSkipsAdvanceByFourOrTwo := by
  intro x nn s
  refine ⟨formXNN_toNat _ _ _, formXNN_toNat _ _ _, ⟨_, rfl, OnlyTouches.refl.skipIf, ?_⟩,
    ⟨_, rfl, OnlyTouches.refl.skipIf, ?_⟩⟩
  · rw [State.skipIf_pc_toNat]
    simp
  · rw [State.skipIf_pc_toNat]
    by_cases h : s.reg x = nn <;> simp [h]

end

section
/-! SUPPORT. The register arithmetic: the difference of two bytes as a number, and the registers after a result and then the
flag (spec/42_register_alu.md R142, R146, R147). -/

namespace Sys2Proof.Machine

theorem toNat_byte_sub (a b : Byte) : (a - b).toNat = (a.toNat + 256 - b.toNat) % 256 := by
  have hb : b.toNat < 256 := b.isLt
  rw [BitVec.toNat_sub]
  omega

/-- The flag wins over a result written to `VF`. -/
theorem State.toNat_reg_setReg_setFlag (s : State) (x r : Nibble) (v f : Byte) :
    (((s.setReg x v).setFlag f).reg r).toNat =
      if r = vf then f.toNat else if r = x then v.toNat else (s.reg r).toNat := by
  rw [State.reg_setFlag, State.reg_setReg, apply_ite BitVec.toNat, apply_ite BitVec.toNat]

end Sys2Proof.Machine
end

section
/-! The statements about the register arithmetic, settled. -/

open Sys2Proof Sys2Proof.Machine

/-- Settles O23: each of the three is one register write; the sum of bytes is the exact sum modulo 256. -/
theorem movesAndImmediateAddWriteOnlyTheirDestination : Obligations.MovesAndImmediateAddWriteOnlyTheirDestination := by
  intro x y nn s
  refine ⟨formXNN_toNat _ _ _, formXNN_toNat _ _ _, formXYN_toNat _ _ _ _,
    ⟨_, rfl, State.advance_pc_toNat _, OnlyTouches.refl.setReg.advance, fun r => ?_⟩,
    ⟨_, rfl, State.advance_pc_toNat _, OnlyTouches.refl.setReg.advance, fun r => ?_⟩,
    ⟨_, rfl, State.advance_pc_toNat _, OnlyTouches.refl.setReg.advance, fun r => ?_⟩⟩
  · rw [State.reg_advance, State.reg_setReg]
  · rw [State.reg_advance, State.reg_setReg, apply_ite BitVec.toNat, BitVec.toNat_add]
  · rw [State.reg_advance, State.reg_setReg]

/-- Settles O24: one register write, of the bitwise product. -/
theorem andWritesOnlyItsDestination : Obligations.AndWritesOnlyItsDestination := by
  intro x y s
  refine ⟨formXYN_toNat _ _ _ _, _, rfl, State.advance_pc_toNat _, OnlyTouches.refl.setReg.advance, fun r hr => ?_,
    fun b => ?_⟩
  · rw [State.reg_advance, State.reg_setReg, if_neg hr]
  · rw [State.reg_advance, State.reg_setReg, if_pos rfl, BitVec.getLsbD_and]

/-- Settles O30: one draw, then one register write, of the byte drawn under the mask. -/
theorem randomMasksOneFreshDraw : Obligations.RandomMasksOneFreshDraw := by
  intro x nn s
  refine ⟨_, rfl, State.advance_pc_toNat _, rfl, OnlyTouches.refl.setDraws.setReg.advance, fun r hr => ?_, fun b => ?_⟩
  · rw [State.reg_advance, State.reg_setReg, if_neg hr]
    rfl
  · rw [State.reg_advance, State.reg_setReg, if_pos rfl, BitVec.getLsbD_and]

/-- Settles O25: the flag is written over the sum, and both are read off the exact sum. -/
theorem addWritesTheSumThenTheCarry : Obligations.AddWritesTheSumThenTheCarry := by
  intro x y s
  refine ⟨formXYN_toNat _ _ _ _, _, rfl, State.advance_pc_toNat _, OnlyTouches.refl.setReg.setFlag.advance, fun r => ?_⟩
  rw [State.reg_advance, State.toNat_reg_setReg_setFlag, carryFlag_toNat, BitVec.toNat_add]

/-- Settles O26: the flag is written over the difference, and both are read off the exact operands. -/
theorem subWritesTheDifferenceThenNotBorrow : Obligations.SubWritesTheDifferenceThenNotBorrow := by
  intro x y s
  refine ⟨formXYN_toNat _ _ _ _, _, rfl, State.advance_pc_toNat _, OnlyTouches.refl.setReg.setFlag.advance, fun r => ?_⟩
  rw [State.reg_advance, State.toNat_reg_setReg_setFlag, notBorrowFlag_toNat, toNat_byte_sub]

end

section
/-! SUPPORT. The index register and the instructions that move bytes between memory and registers: the bytes after a store,
the registers after a load, the decimal digits as numbers, and the answers of `Fx33` and `Fx65` on either side of the bound
on the last address (spec/43_memory_index.md R161 to R164; spec/47_full_profile.md R235). -/

namespace Sys2Proof.Machine

/-! ### Operand values as numbers -/

theorem hundreds_toNat (v : Byte) : (hundreds v).toNat = v.toNat / 100 :=
  Nat.mod_eq_of_lt ((Nat.div_le_self _ _).trans_lt v.isLt)

theorem tens_toNat (v : Byte) : (tens v).toNat = v.toNat / 10 % 10 :=
  Nat.mod_eq_of_lt ((Nat.mod_lt _ (by decide)).trans (by decide : 10 < 2 ^ 8))

theorem ones_toNat (v : Byte) : (ones v).toNat = v.toNat % 10 :=
  Nat.mod_eq_of_lt ((Nat.mod_lt _ (by decide)).trans (by decide : 10 < 2 ^ 8))

/-- The product fits 16 bits, so it is exact. -/
theorem glyphAddress_toNat (v : Byte) : (glyphAddress v).toNat = v.toNat * 5 :=
  Nat.mod_eq_of_lt (by have := v.isLt; omega)

section
variable (s : State)

theorem State.advanceIndex_I_toNat (x : Nibble) : (s.advanceIndex x).I.toNat =
    if s.quirks.loadStoreIncI = true then (s.I.toNat + x.toNat + 1) % 65536 else s.I.toNat := by
  rw [State.advanceIndex_eq, State.setI_I, apply_ite BitVec.toNat, BitVec.toNat_add, BitVec.toNat_ofNat, Nat.add_mod_mod]
  rfl

/-! ### Bytes after a store, registers after a load -/

theorem State.byteAt_setBytes_add (a : Nat) {bs : List Byte} {k : Nat} (hk : k < bs.length) :
    (s.setBytes a bs).byteAt (a + k) = bs[k] := by
  rw [State.byteAt_setBytes, dif_pos ⟨Nat.le_add_right a k, by omega⟩]
  simp

theorem State.byteAt_setBytes_of_outside {a c : Nat} {bs : List Byte} (hc : c < a ∨ a + bs.length ≤ c) :
    (s.setBytes a bs).byteAt c = s.byteAt c := by
  rw [State.byteAt_setBytes, dif_neg (by omega)]

/-- `V[0]` to `V[x]` stored from `a` up. -/
theorem State.byteAt_setBytes_regsUpTo (a : Nat) {x r : Nibble} (hr : r.toNat ≤ x.toNat) :
    (s.setBytes a (s.regsUpTo x)).byteAt (a + r.toNat) = s.reg r := by
  rw [State.byteAt_setBytes_add s a (by rw [State.length_regsUpTo]; omega), State.getElem_regsUpTo]

/-- `V[0]` to `V[x]` loaded from `a` up. -/
theorem State.reg_setRegsFrom_bytes (a : Nat) (x r : Nibble) :
    (s.setRegsFrom 0 ((List.range' a (regCount x)).map s.byteAt)).reg r =
      if r.toNat ≤ x.toNat then s.byteAt (a + r.toNat) else s.reg r := by
  rw [State.reg_setRegsFrom]
  simp [regCount]

end

/-! ### Answers of `Fx33` and `Fx65` -/

section
variable {s : State} (x : Nibble)

theorem exec_ldB_of_le (hin : s.I.toNat + 3 ≤ memSize) : exec (.ldB x) s =
    .next (s.setBytes s.I.toNat [hundreds (s.reg x), tens (s.reg x), ones (s.reg x)]).advance := by
  simp only [exec, execLdB]
  rw [s.writeBytes_eq, if_pos (.inr hin)]

theorem exec_ldB_of_gt (hout : memSize < s.I.toNat + 3) :
    exec (.ldB x) s = .fault (.addressOutOfBounds (max s.I.toNat memSize) .write) := by
  simp only [exec, execLdB]
  rw [s.writeBytes_eq, if_neg (by simpa using hout)]
  rfl

theorem exec_ldVxI_of_le (hin : s.I.toNat + regCount x ≤ memSize) : exec (.ldVxI x) s =
    .next ((s.setRegsFrom 0 ((List.range' s.I.toNat (regCount x)).map s.byteAt)).advanceIndex x).advance := by
  simp only [exec, execLdVxI]
  rw [s.readBytes_eq, if_pos (.inr hin)]

theorem exec_ldVxI_of_gt (hout : memSize < s.I.toNat + regCount x) :
    exec (.ldVxI x) s = .fault (.addressOutOfBounds (max s.I.toNat memSize) .read) := by
  simp only [exec, execLdVxI]
  rw [s.readBytes_eq, if_neg (by simpa [regCount] using hout)]
  rfl

end

end Sys2Proof.Machine
end

section
/-! The statements about the index register and memory moves, settled. -/

open Sys2Proof Sys2Proof.Machine

/-- Settles O31: one write of `I` each; the address is extended, and the product of a byte by 5 fits. -/
theorem indexLoadsAreExact : Obligations.IndexLoadsAreExact := by
  intro nnn x s
  refine ⟨formNNN_toNat _ _, formXNN_toNat _ _ _, ⟨_, rfl, State.advance_pc_toNat _, OnlyTouches.refl.setI.advance, ?_⟩,
    ⟨_, rfl, State.advance_pc_toNat _, OnlyTouches.refl.setI.advance, ?_⟩⟩
  · exact toNat_setWidth_address nnn
  · exact glyphAddress_toNat (s.reg x)

/-- Settles O33: on either side of the bound on `I + 2`; the three bytes stored are the digits. -/
theorem decimalStoreWritesThreeDigits : Obligations.DecimalStoreWritesThreeDigits := by
  intro x s
  refine ⟨formXNN_toNat _ _ _, fun hin => ?_, fun hout => exec_ldB_of_gt x (by omega)⟩
  have ht := exec_ldB_of_le (s := s) x (by omega)
  refine ⟨_, ht, ?_, exec_onlyTouches ht, ?_, ?_, ?_, fun a ha => ?_⟩
  · rw [State.advance_pc_toNat, State.setBytes_pc]
  · simp [State.byteAt_setBytes, hundreds_toNat]
  · simp [State.byteAt_setBytes, tens_toNat]
  · simp [State.byteAt_setBytes, ones_toNat]
  · exact s.byteAt_setBytes_of_outside ha

/-- Settles O34: on either side of the bound on `I + x`; the registers are loaded first and `I` advances last. -/
theorem registerLoadReadsUpFromTheIndex : Obligations.RegisterLoadReadsUpFromTheIndex := by
  intro x s
  refine ⟨formXNN_toNat _ _ _, fun hin => ?_, fun hout => exec_ldVxI_of_gt x (Nat.lt_succ_of_le hout)⟩
  have ht := exec_ldVxI_of_le x hin
  refine ⟨_, ht, ?_, exec_onlyTouches ht, fun r => ?_, fun hp => ?_, ?_⟩
  · rw [State.advance_pc_toNat, State.advanceIndex_pc, State.setRegsFrom_pc]
  · rw [State.reg_advance, State.advanceIndex_eq, State.reg_setI, State.reg_setRegsFrom_bytes]
  · rw [State.advanceIndex_of_reference (by rwa [State.setRegsFrom_config])]
    simp
  · rw [State.advance_I, State.advanceIndex_I_toNat, State.quirks_congr (State.setRegsFrom_config ..), State.setRegsFrom_I]

/-- Settles O36: by O34 at the later state, whose bytes from `I` up are those that `Fx55` stored. -/
theorem storedRegistersLoadBack : Obligations.StoredRegistersLoadBack := by
  intro x s t u ht hmem hconfig hI
  obtain ⟨hin, rfl⟩ := exec_ldIVx_next ht
  obtain ⟨-, hload, -⟩ := registerLoadReadsUpFromTheIndex x u
  obtain ⟨w, hw, -, -, hreg, -⟩ := hload (by rwa [hI])
  refine ⟨w, hw, fun r hr => ?_⟩
  rw [hreg r, if_pos hr, State.byteAt_congr hmem hconfig, hI, State.byteAt_advance, State.advanceIndex_eq,
    State.byteAt_setI, State.byteAt_setBytes_regsUpTo s _ hr]

/-- Settles O50: every other instruction has memory in its frame, and a byte outside the addresses of a store is kept. -/
theorem onlyTheTwoStoresWriteMemory : Obligations.OnlyTheTwoStoresWriteMemory := by
  intro i s t a h hne
  cases i with
  | ldB x =>
    obtain ⟨-, rfl⟩ := exec_ldB_next h
    have hinside : ¬(a < s.I.toNat ∨ s.I.toNat + 3 ≤ a) := fun ha => hne (s.byteAt_setBytes_of_outside ha)
    exact .inl ⟨x, rfl, by omega, by omega⟩
  | ldIVx x =>
    obtain ⟨-, rfl⟩ := exec_ldIVx_next h
    rw [State.byteAt_advance, State.advanceIndex_eq, State.byteAt_setI] at hne
    have hinside : ¬(a < s.I.toNat ∨ s.I.toNat + (s.regsUpTo x).length ≤ a) :=
      fun ha => hne (s.byteAt_setBytes_of_outside ha)
    rw [State.length_regsUpTo] at hinside
    exact .inr ⟨x, rfl, by omega, by omega⟩
  | _ => exact absurd (exec_onlyTouches h .memory (by simp [writtenParts]) a) hne

end

section
/-! SUPPORT. The sprite draw: `pixelIndex` case by case, what `Dxyn` answers for each outcome of reading its rows and of
plotting its pixels, and the canvas of a draw in terms of the entries its sprite covers (spec/44_draw.md R180 to R186). -/

namespace Sys2Proof.Machine

/-! ### `pixelIndex` -/

section
variable {px py : Nat}

theorem pixelIndex_clip_of_onGrid (h : px < 64 ∧ py < 32) : pixelIndex .clip px py = .entry ⟨py * 64 + px, by omega⟩ :=
  dif_pos h

theorem pixelIndex_clip_of_offGrid (h : ¬(px < 64 ∧ py < 32)) : pixelIndex .clip px py = .none :=
  dif_neg h

theorem pixelIndex_flat_of_lt (h : py * 64 + px < 2048) : pixelIndex .flat px py = .entry ⟨py * 64 + px, h⟩ :=
  dif_pos h

theorem pixelIndex_flat_of_ge (h : py * 64 + px ≥ 2048) : pixelIndex .flat px py = .outOfRange (py * 64 + px) :=
  dif_neg (Nat.not_lt.2 h)

end

/-- A list of set bits that is drawn to its end has none past the framebuffer. -/
theorem Canvas.inRange_of_plotAll_ok {edge : DrawEdge} {ps : List (Nat × Nat)} {c d : Canvas}
    (h : c.plotAll edge ps = .ok d) : ∀ p ∈ ps, ∀ k, pixelIndex edge p.1 p.2 ≠ .outOfRange k := by
  induction ps generalizing c with
  | nil => simp
  | cons p ps ih =>
    simp only [Canvas.plotAll, Canvas.plot] at h
    cases ht : pixelIndex edge p.1 p.2 with
    | outOfRange k => simp [ht] at h
    | none | entry _ =>
      rw [ht] at h
      exact List.forall_mem_cons.2 ⟨by simp [ht], ih h⟩

section
variable {x y n : Nibble} {s t : State}

/-! ### Answers of `Dxyn` -/

theorem exec_drw_of_plotAll_ok (hrows : RowsReadable n s) {c : Canvas}
    (hc : (Canvas.mk s.fb false).plotAll s.config.drawEdge (drawPixels s x y n) = .ok c) :
    exec (.drw x y n) s = .next (s.setCanvas c).advance := by
  rw [drawPixels] at hc
  simp only [exec, execDrw, readBytes_of_readable s n hrows, hc]

theorem exec_drw_of_plotAll_error (hrows : RowsReadable n s) {f : Fault}
    (hf : (Canvas.mk s.fb false).plotAll s.config.drawEdge (drawPixels s x y n) = .error f) :
    exec (.drw x y n) s = .fault f := by
  rw [drawPixels] at hf
  simp only [exec, execDrw, readBytes_of_readable s n hrows, hf, raise]

theorem exec_drw_of_not_readable (hrows : ¬RowsReadable n s) :
    exec (.drw x y n) s = .fault (.addressOutOfBounds (max s.I.toNat memSize) .read) := by
  simp only [exec, execDrw, readBytes_of_not_readable s n hrows, raise]

theorem State.reg_setCanvas (s : State) (c : Canvas) (r : Nibble) :
    (s.setCanvas c).reg r = if r = vf then flagByte c.hit else s.reg r :=
  State.reg_setFlag _ r _

/-! ### The canvas of a draw -/

/-- No set bit of the sprite lands past the framebuffer. -/
def SpriteInRange (x y n : Nibble) (s : State) : Prop :=
  ∀ r b k : Nat, r < n.toNat → b < 8 → spriteBit s r b → spriteTarget x y s r b ≠ .outOfRange k

theorem spriteInRange_iff : SpriteInRange x y n s ↔
    ∀ p ∈ drawPixels s x y n, ∀ k, pixelIndex s.config.drawEdge p.1 p.2 ≠ .outOfRange k := by
  constructor
  · intro hin p hp k
    obtain ⟨r, b, hr, hb, hset, rfl⟩ := (mem_drawPixels s x y n p).1 hp
    exact hin r b k hr hb hset
  · intro hin r b k hr hb hset
    exact hin _ ((mem_drawPixels s x y n _).2 ⟨r, b, hr, hb, hset, rfl⟩) k

/-- A sprite in range is drawn to its end: the covered entries are toggled, the others kept, and a hit is a lit covered
entry (R180, R186). -/
theorem plotAll_drawPixels (hin : SpriteInRange x y n s) :
    ∃ c, (Canvas.mk s.fb false).plotAll s.config.drawEdge (drawPixels s x y n) = .ok c ∧
      (∀ k, SpriteCovers x y n s k → c.fb.get k = !s.fb.get k) ∧
      (∀ k, ¬SpriteCovers x y n s k → c.fb.get k = s.fb.get k) ∧
      (c.hit = true ↔ ∃ k, SpriteCovers x y n s k ∧ s.fb.get k = true) := by
  have hspec := Canvas.plotAll_spec _ _ ⟨s.fb, false⟩ (spriteInRange_iff.1 hin) (drawPixels_distinct s x y n _)
  simpa only [drawPixels_cover, Bool.false_eq_true, false_or] using hspec

theorem spriteInRange_of_exec_next (h : exec (.drw x y n) s = .next t) : SpriteInRange x y n s := by
  obtain ⟨c, -, hc, -⟩ := exec_drw_next h
  exact spriteInRange_iff.2 (Canvas.inRange_of_plotAll_ok hc)

/-- The sprite and its place are read off the memory, `I`, the parameters and the two coordinates. -/
theorem spriteCovers_congr (htouch : OnlyTouches [.pc, .V, .fb, .needsRedraw] s t) (hx : t.reg x = s.reg x)
    (hy : t.reg y = s.reg y) (k : Fin 2048) : SpriteCovers x y n t k ↔ SpriteCovers x y n s k := by
  have hbytes : ∀ a, t.byteAt a = s.byteAt a := htouch .memory (by decide)
  have hI : t.I = s.I := htouch .I (by decide)
  have hconfig : t.config = s.config := htouch .config (by decide)
  simp only [SpriteCovers, spriteBit, spriteTarget, hbytes, hI, hconfig, hx, hy]

/-- The first set bit past the framebuffer, in row-then-bit order, stops the draw with its index (R184, R265). -/
theorem plotAll_drawPixels_fault {r b k : Nat} (hr : r < n.toNat) (hb : b < 8) (hset : spriteBit s r b)
    (hout : spriteTarget x y s r b = .outOfRange k)
    (hfirst : ∀ r' b', r' < r ∨ (r' = r ∧ b' < b) → b' < 8 → spriteBit s r' b' →
      ∀ j, spriteTarget x y s r' b' ≠ .outOfRange j)
    (c : Canvas) : c.plotAll s.config.drawEdge (drawPixels s x y n) = .error (.framebufferIndexOutOfRange k) := by
  obtain ⟨ps, qs, hsplit⟩ := List.append_of_mem ((mem_drawPixels s x y n _).2 ⟨r, b, hr, hb, hset, rfl⟩)
  have horder : (drawPixels s x y n).Pairwise Before := pairwise_spritePixels _ _ _
  rw [hsplit, List.pairwise_append] at horder
  obtain ⟨-, -, hbefore⟩ := horder
  rw [hsplit]
  refine Canvas.plotAll_fault _ ps qs _ c k (fun q hq => ?_) hout
  obtain ⟨r', b', -, hb', hset', rfl⟩ := (mem_drawPixels s x y n q).1 (by simp [hsplit, hq])
  refine hfirst r' b' ?_ hb' hset'
  have hlt := hbefore _ hq _ (List.mem_cons_self ..)
  simp only [Before] at hlt
  omega

end

end Sys2Proof.Machine
end

section
/-! The statements about the sprite draw, settled. -/

open Sys2Proof Sys2Proof.Machine

/-- Settles O38: under each edge rule the index is the entry that the rule's own test lets through. -/
theorem pixelIndexFollowsDrawEdge : Obligations.PixelIndexFollowsDrawEdge :=
  fun _ _ => ⟨⟨_, rfl, rfl⟩, fun h => ⟨_, pixelIndex_clip_of_onGrid h, rfl⟩, pixelIndex_clip_of_offGrid,
    fun h => ⟨_, pixelIndex_flat_of_lt h, rfl⟩, pixelIndex_flat_of_ge⟩

/-- Settles O39: the sprite is in range, so its canvas is the one of `plotAll_drawPixels`, and `VF` is the hit. -/
theorem drawTogglesExactlyTheCoveredPixels : Obligations.DrawTogglesExactlyTheCoveredPixels := by
  intro x y n s hrows hin
  obtain ⟨c, hc, htoggled, hkept, hhit⟩ := plotAll_drawPixels hin
  have ht := exec_drw_of_plotAll_ok hrows hc
  have hflag : (s.setCanvas c).advance.reg 0xF = flagByte c.hit := State.reg_setCanvas s c vf
  refine ⟨_, ht, State.advance_pc_toNat _, rfl, exec_onlyTouches ht, htoggled, hkept, fun r hr => ?_, fun hlit => ?_,
    fun hunlit => ?_⟩
  · rw [State.reg_advance, State.reg_setCanvas]
    exact if_neg hr
  · rw [hflag, hhit.2 hlit, flagByte_true]
  · have hmiss : c.hit = false := by
      rw [Bool.eq_false_iff, Ne, hhit]
      rintro ⟨k, hcov, hlit⟩
      simp [hunlit k hcov] at hlit
    rw [hflag, hmiss, flagByte_false]

/-- Settles O40: by O39, as neither edge rule has an index out of range; rows out of memory fault before any pixel. -/
theorem drawOnlyNeedsItsRowsUnderWrapAndClip : Obligations.DrawOnlyNeedsItsRowsUnderWrapAndClip := by
  intro x y n s hedge
  refine ⟨fun hrows => ?_, exec_drw_of_not_readable⟩
  obtain ⟨t, ht, -⟩ := drawTogglesExactlyTheCoveredPixels x y n s hrows
    fun _ _ k _ _ _ => pixelIndex_ne_outOfRange hedge _ _ k
  exact ⟨t, ht⟩

/-- Settles O41: the bits before the first one past the screen have an entry, and that one has its index. -/
theorem flatDrawFaultsAtTheFirstBitPastTheScreen : Obligations.FlatDrawFaultsAtTheFirstBitPastTheScreen := by
  intro x y n s r b hflat hrows hr hb hset hpast hfirst
  refine exec_drw_of_plotAll_error hrows (plotAll_drawPixels_fault hr hb hset ?_ (fun r' b' hbefore hb' hset' j => ?_) _)
  · rw [spriteTarget, hflat, pixelIndex_flat_of_ge hpast]
  · rw [spriteTarget, hflat, pixelIndex_flat_of_lt (hfirst r' b' hbefore hb' hset')]
    simp

/-- Settles O42: by O39 at both states. The second sprite covers what the first does, so every entry is toggled twice or
kept twice, and a covered entry is lit between the draws iff it was unlit before them. -/
theorem drawingTwiceRestoresTheFramebuffer : Obligations.DrawingTwiceRestoresTheFramebuffer := by
  intro x y n s t u hx hy ht hu
  obtain ⟨-, hrows, -⟩ := exec_drw_next ht
  obtain ⟨-, hrows', -⟩ := exec_drw_next hu
  obtain ⟨t', ht', -, -, htouch, htoggled, hkept, hregs, -⟩ :=
    drawTogglesExactlyTheCoveredPixels x y n s hrows (spriteInRange_of_exec_next ht)
  obtain ⟨u', hu', -, -, -, htoggled', hkept', -, hcollide, hclear⟩ :=
    drawTogglesExactlyTheCoveredPixels x y n t hrows' (spriteInRange_of_exec_next hu)
  cases ht.symm.trans ht'
  cases hu.symm.trans hu'
  have hcov : ∀ k, SpriteCovers x y n t k ↔ SpriteCovers x y n s k := spriteCovers_congr htouch (hregs x hx) (hregs y hy)
  refine ⟨Framebuffer.ext_get fun k => ?_, ?_, fun hflag => ?_⟩
  · by_cases hk : SpriteCovers x y n s k
    · rw [htoggled' k ((hcov k).2 hk), htoggled k hk, Bool.not_not]
    · rw [hkept' k (mt (hcov k).1 hk), hkept k hk]
  · rintro ⟨k, hk, hunlit⟩
    exact hcollide ⟨k, (hcov k).2 hk, by rw [htoggled k hk, hunlit, Bool.not_false]⟩
  · by_contra hnone
    have hzero : u.reg 0xF = 0 := hclear fun k hk => by
      have hlit : s.fb.get k = true := by
        by_contra h
        exact hnone ⟨k, (hcov k).1 hk, by simpa using h⟩
      rw [htoggled k ((hcov k).1 hk), hlit, Bool.not_true]
    rw [hzero] at hflag
    exact absurd hflag (by decide)

/-- Settles O43: no row has no pixel, so the canvas is the framebuffer as it was, without a hit. -/
theorem drawOfNoRowsClearsVfAndAsksForARedraw : Obligations.DrawOfNoRowsClearsVfAndAsksForARedraw := by
  intro x y s
  have ht : exec (.drw x y 0) s = .next (s.setCanvas ⟨s.fb, false⟩).advance := exec_drw_of_plotAll_ok (.inl rfl) rfl
  have htouch : OnlyTouches [.fb, .pc, .V, .needsRedraw] s (s.setCanvas ⟨s.fb, false⟩).advance :=
    (exec_onlyTouches ht).mono (by simp [writtenParts])
  exact ⟨_, ht, State.advance_pc_toNat _, rfl, htouch.of_cons rfl, State.reg_setCanvas s _⟩

end

section
/-! SUPPORT. Timers and keys: the instructions that write a timer and what they leave in it, and the answers of `ExA1` on
either side of the range of key numbers (spec/45_timer_key.md R200, R201, R204 to R206). -/

namespace Sys2Proof.Machine

variable {i : Instr} {s t : State}

/-! ### Writes of a timer -/

theorem mem_writtenParts_DT : .DT ∈ writtenParts i ↔ ∃ x, i = .ldDtVx x := by
  cases i <;> simp [writtenParts]

theorem mem_writtenParts_ST : .ST ∈ writtenParts i ↔ ∃ x, i = .ldStVx x := by
  cases i <;> simp [writtenParts]

theorem exec_DT_of_ne (h : exec i s = .next t) (hi : ∀ x, i ≠ .ldDtVx x) : t.DT = s.DT :=
  exec_onlyTouches h .DT fun hmem => (mem_writtenParts_DT.1 hmem).elim hi

theorem exec_ST_of_ne (h : exec i s = .next t) (hi : ∀ x, i ≠ .ldStVx x) : t.ST = s.ST :=
  exec_onlyTouches h .ST fun hmem => (mem_writtenParts_ST.1 hmem).elim hi

theorem exec_ldDtVx (x : Nibble) : exec (.ldDtVx x) s = .next ({ s with DT := s.reg x } : State).advance := rfl

theorem exec_ldStVx (x : Nibble) : exec (.ldStVx x) s = .next ({ s with ST := s.reg x } : State).advance := rfl

/-- A step that decodes to `i` answers what `i` leaves, both timers one lower (spec/60_exceptions.md R280). -/
theorem exec_of_step_next {w : Word} (hw : s.fetch = .ok w) (hi : decode s.config.profile w = .ok i) (h : step s = .next t) :
    ∃ u, exec i s = .next u ∧ t.DT.toNat = u.DT.toNat - 1 ∧ t.ST.toNat = u.ST.toNat - 1 := by
  obtain ⟨-, w', i', u, hw', hi', hu, rfl⟩ := step_next_cases h
  obtain rfl : w' = w := Except.ok.inj (hw'.symm.trans hw)
  obtain rfl : i' = i := Except.ok.inj (hi'.symm.trans hi)
  exact ⟨u, hu, tick_toNat _, tick_toNat _⟩

/-! ### Answers of `ExA1` -/

theorem exec_sknp_of_key {x : Nibble} (k : Fin 16) (hk : (s.reg x).toNat = k.val) :
    exec (.sknp x) s = .next (s.skipIf (!s.key[k])) := by
  simp only [exec, execSknp, s.keyPressed_of_lt k hk]

theorem exec_sknp_of_no_key {x : Nibble} (hk : 15 < (s.reg x).toNat) :
    exec (.sknp x) s = .fault (.keyIndexOutOfRange (s.reg x)) := by
  simp only [exec, execSknp, s.keyPressed_of_gt hk, raise]

end Sys2Proof.Machine
end

section
/-! The statements about timers and keys, settled. -/

open Sys2Proof Sys2Proof.Machine

/-- Settles O15: the tick follows the instruction, and a timer is in the frame of the one instruction that writes it. -/
theorem timersCountDownFromTheLastWrite : Obligations.TimersCountDownFromTheLastWrite := by
  intro s t i w hw hi h
  obtain ⟨u, hu, hDT, hST⟩ := exec_of_step_next hw hi h
  refine ⟨fun hne => ?_, fun hne => ?_, ?_, ?_⟩
  · rw [hDT, exec_DT_of_ne hu hne]
  · rw [hST, exec_ST_of_ne hu hne]
  · rintro x rfl
    cases (exec_ldDtVx x).symm.trans hu
    exact hDT
  · rintro x rfl
    cases (exec_ldStVx x).symm.trans hu
    exact hST

/-- Settles O45: each of the three is one write and the advance of `pc`. -/
theorem timerMovesCopyTheValue : Obligations.TimerMovesCopyTheValue := by
  intro x s
  refine ⟨⟨_, rfl, State.advance_pc_toNat _, OnlyTouches.refl.setReg.advance, fun r => ?_⟩,
    ⟨_, exec_ldDtVx x, State.advance_pc_toNat _, OnlyTouches.refl.setDT.advance, rfl⟩,
    ⟨_, exec_ldStVx x, State.advance_pc_toNat _, OnlyTouches.refl.setST.advance, rfl⟩⟩
  rw [State.reg_advance, State.reg_setReg]

/-- Settles O46: on either side of the bound on the key number; `ExA1` is the skip form on a released key. -/
theorem keySkipTestsTheKeyOrFaults : Obligations.KeySkipTestsTheKeyOrFaults := by
  intro x s
  refine ⟨formXNN_toNat _ _ _, fun k hk => ?_, exec_sknp_of_no_key⟩
  refine ⟨_, exec_sknp_of_key k hk, OnlyTouches.refl.skipIf, ?_⟩
  simp only [State.skipIf_pc_toNat, Bool.not_eq_true']

end

section
/-! SUPPORT. The instructions that FULL adds: the words of family 0, the operands that the sub-parameters select, the
registers after a logic operation, and the answers of `Fx55`, `Ex9E` and `Fx0A` case by case (spec/47_full_profile.md R220
to R235). -/

namespace Sys2Proof

/-- Family 0 holds two instructions, each with one word. -/
theorem eq_ret_or_cls_of_fieldF_encode {i : Instr} (hf : fieldF (encode i) = 0x0) : i = .ret ∨ i = .cls := by
  cases i with
  | ret => exact .inl rfl
  | cls => exact .inr rfl
  | _ => simp [encode] at hf

end Sys2Proof

namespace Sys2Proof.Machine

/-! ### Operands that a sub-parameter selects (R221) -/

theorem toNat_topDigit (nnn : Address) : (nnn.extractLsb' 8 4).toNat = nnn.toNat / 256 := by
  have hlt : nnn.toNat < 4096 := nnn.isLt
  rw [BitVec.extractLsb'_toNat, Nat.shiftRight_eq_div_pow]
  omega

section
variable {s : State}

theorem State.shiftOperand_eq (s : State) (x y : Nibble) :
    s.shiftOperand x y = if s.quirks.shiftSource = .vy then s.reg y else s.reg x := by
  unfold State.shiftOperand
  cases s.quirks.shiftSource <;> rfl

theorem State.jumpOffset_of_v0 (h : s.quirks.jumpOffsetReg = .v0) (nnn : Address) : s.jumpOffset nnn = s.reg 0 := by
  rw [State.jumpOffset, h]

theorem State.jumpOffset_of_vx (h : s.quirks.jumpOffsetReg = .vx) {nnn : Address} {x : Nibble}
    (hx : x.toNat = nnn.toNat / 256) : s.jumpOffset nnn = s.reg x := by
  obtain rfl : x = nnn.extractLsb' 8 4 := BitVec.eq_of_toNat_eq (hx.trans (toNat_topDigit nnn).symm)
  rw [State.jumpOffset, h]

/-- The sum of the 12-bit operand and the byte selected is taken at the width of `pc`. -/
theorem State.offsetJump_pc_toNat (s : State) (nnn : Address) :
    (s.jumpTo (nnn.setWidth 16 + (s.jumpOffset nnn).setWidth 16)).pc.toNat =
      (nnn.toNat + (s.jumpOffset nnn).toNat) % 65536 := by
  rw [State.jumpTo_pc, BitVec.toNat_add, toNat_setWidth_address, BitVec.toNat_setWidth_of_le (by decide)]

/-- A REFERENCE machine uses the values taken, so only a FULL machine waits for a release. -/
theorem State.full_of_waitForRelease (h : s.quirks.waitForRelease = true) :
    ∃ q : Quirks, s.config.profile = .full q ∧ q.waitForRelease = true := by
  rw [State.quirks] at h
  cases hp : s.config.profile with
  | reference =>
    rw [hp] at h
    exact absurd h (by decide)
  | full q =>
    rw [hp] at h
    exact ⟨q, rfl, h⟩

/-! ### Logic and shift results -/

/-- The whole effect of OR and of XOR, whose result is `v`: the flag, where it is cleared, wins over the result. -/
theorem State.setReg_logicFlag_advance_effect (s : State) (x : Nibble) (v : Byte) :
    (s.setReg x v).logicFlag.advance.pc.toNat = (s.pc.toNat + 2) % 65536 ∧
      OnlyTouches [.pc, .V] s (s.setReg x v).logicFlag.advance ∧
      ∀ r, (s.setReg x v).logicFlag.advance.reg r =
        if r = vf ∧ s.quirks.logicResetsVF = true then 0 else if r = x then v else s.reg r := by
  refine ⟨?_, OnlyTouches.refl.setReg.logicFlag.advance, fun r => ?_⟩
  · rw [State.advance_pc_toNat, State.logicFlag_pc, State.setReg_pc]
  · rw [State.reg_advance, State.reg_logicFlag, State.reg_setReg, State.quirks_congr (State.setReg_config ..)]

theorem toNat_byte_half (v : Byte) : (v >>> 1).toNat = v.toNat / 2 := by
  rw [BitVec.toNat_ushiftRight, Nat.shiftRight_one]

theorem toNat_byte_double (v : Byte) : (v <<< 1).toNat = v.toNat * 2 % 256 := by
  rw [BitVec.toNat_shiftLeft, Nat.shiftLeft_eq]

/-! ### Answers of `Fx55`, `Ex9E` and `Fx0A` -/

variable {x : Nibble}

theorem exec_ldIVx_of_le (hin : s.I.toNat + regCount x ≤ memSize) : exec (.ldIVx x) s =
    .next ((s.setBytes s.I.toNat (s.regsUpTo x)).advanceIndex x).advance := by
  simp only [exec, execLdIVx]
  rw [s.writeBytes_eq, if_pos (.inr (by rwa [State.length_regsUpTo]))]

theorem exec_ldIVx_of_gt (hout : memSize < s.I.toNat + regCount x) :
    exec (.ldIVx x) s = .fault (.addressOutOfBounds (max s.I.toNat memSize) .write) := by
  have hne : s.regsUpTo x ≠ [] := List.ne_nil_of_length_eq_add_one (s.length_regsUpTo x)
  simp only [exec, execLdIVx]
  rw [s.writeBytes_eq, if_neg (by simpa [hne, regCount] using hout)]
  rfl

theorem exec_skp_of_key (k : Fin 16) (hk : (s.reg x).toNat = k.val) : exec (.skp x) s = .next (s.skipIf s.key[k]) := by
  simp only [exec, execSkp, s.keyPressed_of_lt k hk]

theorem exec_skp_of_no_key (hk : 15 < (s.reg x).toNat) : exec (.skp x) s = .fault (.keyIndexOutOfRange (s.reg x)) := by
  simp only [exec, execSkp, s.keyPressed_of_gt hk, raise]

theorem exec_ldVxK_of_pressed (hq : s.quirks.waitForRelease = false) {k : Fin 16} (hk : s.leastPressed = some k) :
    exec (.ldVxK x) s = .next (s.setReg x (BitVec.ofNat 8 k.val)).advance := by
  simp [exec, execLdVxK, hq, hk]

theorem exec_ldVxK_of_none (hq : s.quirks.waitForRelease = false) (hk : s.leastPressed = none) :
    exec (.ldVxK x) s = .next s := by
  simp [exec, execLdVxK, hq, hk]

theorem exec_ldVxK_of_waitForRelease (hq : s.quirks.waitForRelease = true) :
    exec (.ldVxK x) s = .refused .waitForReleaseNotGiven := by
  simp [exec, execLdVxK, hq]

end

end Sys2Proof.Machine
end

section
/-! The statements about the FULL profile, settled. -/

open Sys2Proof Sys2Proof.Machine

/-- Settles O27: `8xy5` with the operands of its difference exchanged; the flag is written over the result. -/
theorem subnWritesTheReverseDifferenceThenNotBorrow : Obligations.SubnWritesTheReverseDifferenceThenNotBorrow := by
  intro x y s
  refine ⟨_, rfl, State.advance_pc_toNat _, OnlyTouches.refl.setReg.setFlag.advance, fun r => ?_⟩
  rw [State.reg_advance, State.toNat_reg_setReg_setFlag, notBorrowFlag_toNat, toNat_byte_sub]

/-- Settles O28: OR and XOR have the one effect, each with its own result. -/
theorem orAndXorClearVfOnlyUnderLogicResetsVf : Obligations.OrAndXorClearVfOnlyUnderLogicResetsVf :=
  fun x _ s => ⟨⟨_, rfl, s.setReg_logicFlag_advance_effect x _⟩, ⟨_, rfl, s.setReg_logicFlag_advance_effect x _⟩⟩

/-- Settles O29: the result and the bit shifted out are both read off the operand selected, and the flag is written last. -/
theorem shiftsWriteTheBitShiftedOut : Obligations.ShiftsWriteTheBitShiftedOut := by
  intro x y s v hv
  obtain rfl : s.shiftOperand x y = v := (s.shiftOperand_eq x y).trans hv.symm
  refine ⟨⟨_, rfl, State.advance_pc_toNat _, OnlyTouches.refl.setReg.setFlag.advance, fun r => ?_⟩,
    ⟨_, rfl, State.advance_pc_toNat _, OnlyTouches.refl.setReg.setFlag.advance, fun r => ?_⟩⟩
  · rw [State.reg_advance, State.toNat_reg_setReg_setFlag, shiftedOutRight_toNat, toNat_byte_half]
  · rw [State.reg_advance, State.toNat_reg_setReg_setFlag, shiftedOutLeft_toNat, toNat_byte_double]

/-- Settles O35: on either side of the bound on `I + x`; the bytes are stored first and `I` advances last. -/
theorem registerStoreWritesUpFromTheIndex : Obligations.RegisterStoreWritesUpFromTheIndex := by
  intro x s
  refine ⟨fun hin => ?_, fun hout => exec_ldIVx_of_gt (Nat.lt_succ_of_le hout)⟩
  have ht := exec_ldIVx_of_le hin
  have hbyte : ∀ a, ((s.setBytes s.I.toNat (s.regsUpTo x)).advanceIndex x).advance.byteAt a =
      (s.setBytes s.I.toNat (s.regsUpTo x)).byteAt a := fun a => by
    rw [State.byteAt_advance, State.advanceIndex_eq, State.byteAt_setI]
  refine ⟨_, ht, ?_, exec_onlyTouches ht, fun r hr => ?_, fun a ha => ?_, ?_⟩
  · rw [State.advance_pc_toNat, State.advanceIndex_pc, State.setBytes_pc]
  · rw [hbyte, State.byteAt_setBytes_regsUpTo s _ hr]
  · rw [hbyte, State.byteAt_setBytes_of_outside s (by rw [State.length_regsUpTo]; omega)]
  · rw [State.advance_I, State.advanceIndex_I_toNat, State.setBytes_eq]
    rfl

/-- Settles O48: the key stored is the least pressed one, whose number fits a byte. -/
theorem waitForKeyTakesTheLeastPressedKey : Obligations.WaitForKeyTakesTheLeastPressedKey := by
  intro x s
  refine ⟨fun hq => ⟨fun k hpressed hleast => ?_, fun hnone => ?_⟩, exec_ldVxK_of_waitForRelease⟩
  · have hk : s.leastPressed = some k := (s.leastPressed_eq_some k).2 ⟨hpressed, hleast⟩
    refine ⟨_, exec_ldVxK_of_pressed hq hk, State.advance_pc_toNat _, OnlyTouches.refl.setReg.advance, fun r => ?_⟩
    have hfits : k.val % 2 ^ 8 = k.val := Nat.mod_eq_of_lt (by omega)
    rw [State.reg_advance, State.reg_setReg, apply_ite BitVec.toNat, BitVec.toNat_ofNat, hfits]
  · exact exec_ldVxK_of_none hq (s.leastPressed_eq_none.2 hnone)

/-- Settles O53: the step passes on the refusal of its instruction, which `Fx0A` alone gives. -/
theorem stepRefusesOnlyTheReleaseVariantOfWaitForKey : Obligations.StepRefusesOnlyTheReleaseVariantOfWaitForKey := by
  intro s r h
  obtain ⟨w, i, hw, hi, hexec⟩ := step_refused_cases h
  obtain ⟨rfl, hq, x, rfl⟩ := exec_refused_cases s hexec
  exact ⟨rfl, ⟨w, x, hw, hi⟩, State.full_of_waitForRelease hq⟩

/-- Settles O7: every instruction is of FULL, and a word of family 0 that decodes is that of RET or of CLS. -/
theorem fullProfileExtendsTheReferenceProfile : Obligations.FullProfileExtendsTheReferenceProfile := by
  intro q w
  refine ⟨fun i hi => decode_eq_ok_iff.2 ⟨encode_of_decode hi, rfl⟩, fun hf hcls hret => ?_⟩
  cases hd : decode (.full q) w with
  | error e => rw [decode_error hd]
  | ok i =>
    obtain rfl := encode_of_decode hd
    rcases eq_ret_or_cls_of_fieldF_encode hf with rfl | rfl
    · exact absurd rfl hret
    · exact absurd rfl hcls

/-- Settles O20: one jump, to the sum with the byte that each value of the sub-parameter selects. -/
theorem offsetJumpAddsTheSelectedRegister : Obligations.OffsetJumpAddsTheSelectedRegister := by
  intro nnn s
  refine ⟨_, rfl, OnlyTouches.refl.jumpTo, fun h => ?_, fun h x hx => ?_⟩
  · rw [State.offsetJump_pc_toNat, State.jumpOffset_of_v0 h]
  · rw [State.offsetJump_pc_toNat, State.jumpOffset_of_vx h hx]

/-- Settles O22: each instruction is the skip form on its condition. -/
theorem registerSkipsAdvanceByFourOrTwo : Obligations.RegisterSkipsAdvanceByFourOrTwo := by
  intro x y s
  refine ⟨⟨_, rfl, OnlyTouches.refl.skipIf, ?_⟩, ⟨_, rfl, OnlyTouches.refl.skipIf, ?_⟩⟩
  · simp only [State.skipIf_pc_toNat, beq_iff_eq]
  · rw [State.skipIf_pc_toNat]
    by_cases h : s.reg x = s.reg y <;> simp [h]

/-- Settles O32: one write of `I`, of the sum at the width of `I`. -/
theorem indexAddWrapsAtSixteenBits : Obligations.IndexAddWrapsAtSixteenBits := by
  intro x s
  refine ⟨_, rfl, State.advance_pc_toNat _, OnlyTouches.refl.setI.advance, ?_⟩
  rw [State.advance_I, State.setI_I, BitVec.toNat_add, BitVec.toNat_setWidth_of_le (by decide)]

/-- Settles O44: the framebuffer left is the blank one. -/
theorem clearScreenBlanksEveryPixel : Obligations.ClearScreenBlanksEveryPixel :=
  fun _ => ⟨_, rfl, State.advance_pc_toNat _, rfl, OnlyTouches.refl.setScreen.advance, Framebuffer.get_blank⟩

/-- Settles O47: on either side of the bound on the key number; `Ex9E` is the skip form on a pressed key. -/
theorem keyPressedSkipTestsTheKeyOrFaults : Obligations.KeyPressedSkipTestsTheKeyOrFaults :=
  fun _ _ => ⟨fun k hk => ⟨_, exec_skp_of_key k hk, OnlyTouches.refl.skipIf, State.skipIf_pc_toNat ..⟩, exec_skp_of_no_key⟩

end

section
/-! SUPPORT. The faults of each instruction that can fault, with what they record (spec/60_exceptions.md R261, R265;
spec/44_draw.md R180; spec/47_full_profile.md R232, R235). Every other instruction answers one next state outright, but for
`Fx0A`, which never faults either. -/

namespace Sys2Proof.Machine

variable {s : State} {f : Fault} {x : Nibble}

/-! ### Call stack -/

theorem exec_ret_fault (h : exec .ret s = .fault f) : f = .stackUnderflow s.pc := by
  by_cases hsp : s.sp.val = 0
  · cases (exec_ret_of_empty hsp).symm.trans h
    rfl
  · have hlt := s.sp.isLt
    have hpos := exec_ret_of_pos (s := s) ⟨s.sp.val - 1, by omega⟩ (Nat.sub_add_cancel (by omega))
    cases hpos.symm.trans h

theorem exec_call_fault {nnn : Address} (h : exec (.call nnn) s = .fault f) : f = .stackOverflow s.pc := by
  by_cases hsp : s.sp.val < 16
  · cases (exec_call_of_lt nnn hsp).symm.trans h
  · have hlt := s.sp.isLt
    cases (exec_call_of_full nnn (by omega)).symm.trans h
    rfl

/-! ### Keys -/

theorem exec_sknp_fault (h : exec (.sknp x) s = .fault f) : f = .keyIndexOutOfRange (s.reg x) := by
  by_cases hk : 15 < (s.reg x).toNat
  · cases (exec_sknp_of_no_key hk).symm.trans h
    rfl
  · cases (exec_sknp_of_key ⟨(s.reg x).toNat, by omega⟩ rfl).symm.trans h

theorem exec_skp_fault (h : exec (.skp x) s = .fault f) : f = .keyIndexOutOfRange (s.reg x) := by
  by_cases hk : 15 < (s.reg x).toNat
  · cases (exec_skp_of_no_key hk).symm.trans h
    rfl
  · cases (exec_skp_of_key ⟨(s.reg x).toNat, by omega⟩ rfl).symm.trans h

theorem exec_ldVxK_ne_fault : exec (.ldVxK x) s ≠ .fault f := by
  intro h
  cases hq : s.quirks.waitForRelease with
  | true => cases (exec_ldVxK_of_waitForRelease hq).symm.trans h
  | false =>
    cases hk : s.leastPressed with
    | some k => cases (exec_ldVxK_of_pressed hq hk).symm.trans h
    | none => cases (exec_ldVxK_of_none hq hk).symm.trans h

/-! ### Memory and draw -/

theorem exec_ldB_fault (h : exec (.ldB x) s = .fault f) : f = .addressOutOfBounds (max s.I.toNat memSize) .write := by
  rcases Nat.lt_or_ge memSize (s.I.toNat + 3) with hout | hin
  · cases (exec_ldB_of_gt x hout).symm.trans h
    rfl
  · cases (exec_ldB_of_le x hin).symm.trans h

theorem exec_ldIVx_fault (h : exec (.ldIVx x) s = .fault f) : f = .addressOutOfBounds (max s.I.toNat memSize) .write := by
  rcases Nat.lt_or_ge memSize (s.I.toNat + regCount x) with hout | hin
  · cases (exec_ldIVx_of_gt hout).symm.trans h
    rfl
  · cases (exec_ldIVx_of_le hin).symm.trans h

theorem exec_ldVxI_fault (h : exec (.ldVxI x) s = .fault f) : f = .addressOutOfBounds (max s.I.toNat memSize) .read := by
  rcases Nat.lt_or_ge memSize (s.I.toNat + regCount x) with hout | hin
  · cases (exec_ldVxI_of_gt x hout).symm.trans h
    rfl
  · cases (exec_ldVxI_of_le x hin).symm.trans h

/-- A draw faults on its rows, which are read first, or on a pixel past the framebuffer. -/
theorem exec_drw_fault {y n : Nibble} (h : exec (.drw x y n) s = .fault f) :
    f = .addressOutOfBounds (max s.I.toNat memSize) .read ∨
      (s.config.drawEdge = .flat ∧ ∃ k, k ≥ 2048 ∧ f = .framebufferIndexOutOfRange k) := by
  by_cases hrows : RowsReadable n s
  · right
    cases hplot : (Canvas.mk s.fb false).plotAll s.config.drawEdge (drawPixels s x y n) with
    | ok c => cases (exec_drw_of_plotAll_ok hrows hplot).symm.trans h
    | error g =>
      cases (exec_drw_of_plotAll_error hrows hplot).symm.trans h
      exact Canvas.plotAll_error hplot
  · left
    cases (exec_drw_of_not_readable hrows).symm.trans h
    rfl

end Sys2Proof.Machine
end

section
/-! The statements about the tick that ends a step and the faults that stop one, settled. -/

open Sys2Proof Sys2Proof.Machine

/-- Settles O14: the step ran one decoded instruction and ticked, and the tick writes the two timers alone. -/
theorem everyStepTicksBothTimersOnce : Obligations.EveryStepTicksBothTimersOnce := by
  intro s t h
  obtain ⟨-, w, i, u, hw, hi, hu, rfl⟩ := step_next_cases h
  exact ⟨w, i, u, hw, hi, hu, tick_toNat u.DT, tick_toNat u.ST, rfl⟩

/-- Settles O52: by the faults of each instruction that can fault; the others answer no fault. -/
theorem everyInstructionRaisesOnlyItsOwnFaults : Obligations.EveryInstructionRaisesOnlyItsOwnFaults := by
  intro i s f h
  cases i with
  | ret => exact .inl ⟨rfl, exec_ret_fault h⟩
  | call nnn => exact .inr <| .inl ⟨⟨nnn, rfl⟩, exec_call_fault h⟩
  | sknp x => exact .inr <| .inr <| .inl ⟨x, .inl rfl, exec_sknp_fault h⟩
  | skp x => exact .inr <| .inr <| .inl ⟨x, .inr rfl, exec_skp_fault h⟩
  | ldB x => exact .inr <| .inr <| .inr <| .inl ⟨⟨x, .inl rfl⟩, exec_ldB_fault h⟩
  | ldIVx x => exact .inr <| .inr <| .inr <| .inl ⟨⟨x, .inr rfl⟩, exec_ldIVx_fault h⟩
  | ldVxI x => exact .inr <| .inr <| .inr <| .inr <| .inl ⟨⟨x, rfl⟩, exec_ldVxI_fault h⟩
  | drw x y n =>
    rcases exec_drw_fault h with hf | ⟨hflat, hindex⟩
    · exact .inr <| .inr <| .inr <| .inr <| .inr <| .inl ⟨⟨x, y, n, rfl⟩, hf⟩
    · exact .inr <| .inr <| .inr <| .inr <| .inr <| .inr ⟨⟨x, y, n, rfl⟩, hflat, hindex⟩
  | ldVxK x => exact absurd h exec_ldVxK_ne_fault
  | _ => cases h

end

section
/-! SUPPORT. What the driver's reset and load do, said once: the bytes after a reset, and the two answers of a load
(spec/70_reset_and_hazards.md R300 to R303). -/

namespace Sys2Proof.Machine

/-! ### Reset -/

/-- Glyph `d` of the font stands at `5 * d` (R31). -/
theorem Memory.unlisted_glyph (font : Font) (d : Fin 16) (r : Fin 5) :
    Memory.unlisted font (5 * d.val + r.val) = font[d][r] := by
  have hrow : (5 * d.val + r.val) / 5 = d.val := by omega
  have hcol : (5 * d.val + r.val) % 5 = r.val := by omega
  rw [Memory.unlisted, dif_pos (by omega)]
  simp only [hrow, hcol, Fin.getElem_fin]

theorem Memory.unlisted_of_ge (font : Font) {a : Nat} (ha : 0x50 ≤ a) : Memory.unlisted font a = 0 :=
  dif_neg (Nat.not_lt.mpr ha)

section
variable (s : State)

/-- Nothing is listed after a reset, so memory reads as the font of the machine's parameter and zeros. -/
@[simp] theorem byteAt_driverReset (a : Nat) : (driverReset s).byteAt a = Memory.unlisted s.config.font a := rfl

@[simp] theorem reg_driverReset (r : Nibble) : (driverReset s).reg r = 0 := Vector.getElem_replicate _

theorem stack_driverReset (k : Fin 16) : (driverReset s).stack[k] = 0 := Vector.getElem_replicate _

theorem key_driverReset (k : Fin 16) : (driverReset s).key[k] = false := Vector.getElem_replicate _

theorem fb_get_driverReset (k : Fin 2048) : (driverReset s).fb.get k = false := Framebuffer.get_blank k

/-- The state after power-on is one that a reset leaves (R301). -/
@[simp] theorem driverReset_reset : driverReset State.reset = State.reset := rfl

end

/-! ### Load -/

section
variable {bytes : List Byte} {origin : Nat}

theorem driverLoad_of_le (h : origin + bytes.length ≤ memSize) (s : State) :
    driverLoad bytes origin s = (s.setBytes origin bytes, .ok) := if_neg (Nat.not_lt.mpr h)

theorem driverLoad_of_gt (h : origin + bytes.length > memSize) (s : State) :
    driverLoad bytes origin s = (s, .programTooLarge) := if_pos h

end

end Sys2Proof.Machine
end

section
/-! The statements about reset and loading, settled. -/

open Sys2Proof Sys2Proof.Machine

/-- Settles O59: an image that fits is stored by `setBytes`, whose bytes and frame are known. -/
theorem loadCopiesTheImageOrRejectsIt : Obligations.LoadCopiesTheImageOrRejectsIt := by
  intro bytes origin s
  refine ⟨fun hfits => ?_, fun hlarge => driverLoad_of_gt hlarge s⟩
  exact ⟨s.setBytes origin bytes, driverLoad_of_le hfits s, OnlyTouches.refl.setBytes (List.mem_singleton.mpr rfl),
    fun k hk => s.byteAt_setBytes_add origin hk, fun a ha => s.byteAt_setBytes_of_outside ha⟩

/-- Settles O56: the reset state is what a reset leaves of itself, and every reset meets the invariant. -/
theorem resetMeetsTheInvariant : Obligations.ResetMeetsTheInvariant := by
  have h := driverReset_inv State.reset
  rwa [driverReset_reset] at h

/-- Settles O58: memory lists nothing, so it reads as the font and zeros; every other element is written out. -/
theorem resetSetsEveryElement : Obligations.ResetSetsEveryElement := by
  refine ⟨?_, driverReset_reset⟩
  rintro s _ rfl
  have hfont (d : Fin 16) (r : Fin 5) : (driverReset s).byteAt (5 * d.val + r.val) = s.config.font[d][r] := by
    rw [byteAt_driverReset, Memory.unlisted_glyph]
  have habove (a : Nat) (ha : 0x50 ≤ a) : (driverReset s).byteAt a = 0 := by
    rw [byteAt_driverReset, Memory.unlisted_of_ge _ ha]
  have hstack (k : Fin 16) : ((driverReset s).stack[k]).toNat = 0 := congrArg BitVec.toNat (stack_driverReset s k)
  exact ⟨hfont, habove, reg_driverReset s, rfl, rfl, rfl, hstack, rfl, rfl, fb_get_driverReset s, key_driverReset s, rfl,
    rfl⟩

end
